-- ==== Sys2Proof/Word.lean ====
section
/-! DEFINITION. The 64-bit signed word (R11, R20) and the closed name sets of the spec: addressing modes (R2, R65),
opcodes (R71) and fault kinds (R200). -/

namespace Sys2Proof

/-- A value of the block: a 64-bit signed integer (R20). Its value is `BitVec.toInt`; the spec fixes no bit
representation and no rule depends on one (C11; assumption log 1). -/
abbrev Word := BitVec 64

/-- The three parameter addressing modes (R2, R65). -/
inductive Mode where
  /-- mode 0 -/
  | position
  /-- mode 1 -/
  | immediate
  /-- mode 2 -/
  | relative
  deriving DecidableEq, Repr

/-- The ten opcodes (R71). -/
inductive Opcode where
  | add
  | mul
  | input
  | output
  | jumpIfTrue
  | jumpIfFalse
  | lessThan
  | equals
  | adjustRelativeBase
  | halt
  deriving DecidableEq, Repr

/-- The fault kinds (R200). The first four are raised by a cycle, `inputStarvation` by the batch driver (R205),
`resumeAfterHalt` by a resume on a halted instance (R206). -/
inductive FaultKind where
  | malformedOpcode
  | invalidMode
  | undefinedAddress
  | overflow
  | inputStarvation
  | resumeAfterHalt
  deriving DecidableEq, Repr

end Sys2Proof
end

