-- ==== Sys2Proof/Config.lean ====
section
/-! DEFINITION. The implementation parameters of the block, with the values this hardware takes (R11). No parameter is
left free: the spec states no result of an instruction as undefined. -/

namespace Sys2Proof

/-- `MIN`, the least value of the 64-bit signed domain (R11). -/
def Config.minValue : Int := -9223372036854775808

/-- `MAX`, the greatest value of the 64-bit signed domain (R11). -/
def Config.maxValue : Int := 9223372036854775807

/-- The greatest address: the address domain is the integers `0 .. MAX` (R11). -/
def Config.maxAddress : Nat := 9223372036854775807

/-- The longest instruction, in words: an instruction word and three parameters (R60). -/
def Config.maxLength : Nat := 4

/-- What an address never written reads as (R31, R41). -/
def Config.unwritten : Word := 0

end Sys2Proof
end

