-- ==== Sys2Proof/Syntax.lean ====
section
/-! DEFINITION. The instructions as syntax: one constructor per row of the opcode table (R71), each operand a raw
parameter word with its addressing mode (R64, R65). -/

namespace Sys2Proof

/-- One parameter of an instruction: its mode digit and its raw parameter word (R64, R65). -/
structure Operand where
  mode : Mode
  raw  : Word
  deriving DecidableEq, Repr

/-- The instruction set (R71). `a` and `b` are read operands, `dst` is the output operand (R19). -/
inductive Instr where
  /-- opcode 1, R110 -/
  | add (a b dst : Operand)
  /-- opcode 2, R111 -/
  | mul (a b dst : Operand)
  /-- opcode 3, R120 -/
  | input (dst : Operand)
  /-- opcode 4, R121 -/
  | output (a : Operand)
  /-- opcode 5, R130 -/
  | jumpIfTrue (a b : Operand)
  /-- opcode 6, R131 -/
  | jumpIfFalse (a b : Operand)
  /-- opcode 7, R140 -/
  | lessThan (a b dst : Operand)
  /-- opcode 8, R141 -/
  | equals (a b dst : Operand)
  /-- opcode 9, R150 -/
  | adjustRelativeBase (a : Operand)
  /-- opcode 99, R160 -/
  | halt
  deriving DecidableEq, Repr

end Sys2Proof
end

