-- ==== Sys2Proof/WellFormed.lean ====
section
/-! DEFINITION. Well-formedness of an instruction: the output operand is never in immediate mode (R68, clause 2). The
other clauses of R68 (undefined digits, digits for absent parameters) have no term of `Instr` to be about. -/

namespace Sys2Proof

/-- The mode of an output parameter is position or relative (R68, clause 2). -/
def Operand.writable (o : Operand) : Bool := o.mode != .immediate

/-- The instruction is one that a valid instruction word can encode (R68, R69). -/
def Instr.wf : Instr → Bool
  | .add _ _ dst => dst.writable
  | .mul _ _ dst => dst.writable
  | .input dst => dst.writable
  | .output _ => true
  | .jumpIfTrue _ _ => true
  | .jumpIfFalse _ _ => true
  | .lessThan _ _ dst => dst.writable
  | .equals _ _ dst => dst.writable
  | .adjustRelativeBase _ => true
  | .halt => true

end Sys2Proof
end

