-- ==== Sys2Proof/Decode.lean ====
section
/-! DEFINITION. The Decoder (R61 to R70): decimal fields, opcode and mode validity, the verdict on one instruction word,
the instruction read from a list of words, and the encoder. -/

namespace Sys2Proof

/-- The opcode's number (R71). -/
def Opcode.code : Opcode → Nat
  | .add => 1
  | .mul => 2
  | .input => 3
  | .output => 4
  | .jumpIfTrue => 5
  | .jumpIfFalse => 6
  | .lessThan => 7
  | .equals => 8
  | .adjustRelativeBase => 9
  | .halt => 99

/-- The opcode with a given number; every other number is unassigned (R71, R72). -/
def Opcode.ofCode : Nat → Option Opcode
  | 1 => some .add
  | 2 => some .mul
  | 3 => some .input
  | 4 => some .output
  | 5 => some .jumpIfTrue
  | 6 => some .jumpIfFalse
  | 7 => some .lessThan
  | 8 => some .equals
  | 9 => some .adjustRelativeBase
  | 99 => some .halt
  | _ => none

/-- Input-parameter count (R71). -/
def Opcode.nin : Opcode → Nat
  | .add | .mul | .lessThan | .equals | .jumpIfTrue | .jumpIfFalse => 2
  | .output | .adjustRelativeBase => 1
  | .input | .halt => 0

/-- Output-parameter count (R71). -/
def Opcode.nout : Opcode → Nat
  | .add | .mul | .lessThan | .equals | .input => 1
  | .output | .adjustRelativeBase | .jumpIfTrue | .jumpIfFalse | .halt => 0

/-- Parameter count `n = nin + nout` (R60, R71). -/
def Opcode.params (op : Opcode) : Nat := op.nin + op.nout

/-- The mode's digit (R2). -/
def Mode.digit : Mode → Nat
  | .position => 0
  | .immediate => 1
  | .relative => 2

/-- The `op` field of an instruction word: decimal digits 1 and 0 (R61). -/
def opField (n : Nat) : Nat := n % 100

/-- The mode digit of parameter `k` (1, 2 or 3): decimal digit `k + 1` (R61, R62). -/
def modeField (k n : Nat) : Nat := n / 10 ^ (k + 1) % 10

/-- The `hi` field: decimal digits 5 and above (R61). -/
def hiField (n : Nat) : Nat := n / 100000

/-- The mode a digit selects for parameter `k` of an opcode, where R68 allows that digit there: a parameter the opcode
lacks has digit 0, and the output parameter, always the last, is not immediate. -/
def modeOf (op : Opcode) (k digit : Nat) : Option Mode :=
  if op.params < k then (if digit = 0 then some .position else none)
  else match digit with
    | 0 => some .position
    | 1 => if op.nout = 1 ∧ k = op.params then none else some .immediate
    | 2 => some .relative
    | _ => none

/-- What the Decoder reports of a valid word (R66); the parameter counts are `op.nin` and `op.nout`. The mode of a
parameter the opcode lacks is position, its digit being 0. -/
structure Decoded where
  op : Opcode
  m1 : Mode
  m2 : Mode
  m3 : Mode
  deriving DecidableEq, Repr

/-- The Decoder's verdict on one instruction word (R66 to R68): opcode validity is checked before mode validity. -/
def decodeWord (w : Word) : Except FaultKind Decoded :=
  if w.toInt < 0 then .error .malformedOpcode
  else
    let n := w.toInt.toNat
    match Opcode.ofCode (opField n) with
    | none => .error .malformedOpcode
    | some op =>
      if hiField n ≠ 0 then .error .invalidMode
      else match modeOf op 1 (modeField 1 n), modeOf op 2 (modeField 2 n), modeOf op 3 (modeField 3 n) with
        | some m1, some m2, some m3 => .ok ⟨op, m1, m2, m3⟩
        | _, _, _ => .error .invalidMode

/-- The instruction of a decoded word with raw parameters `r1`, `r2`, `r3` (R60); those of absent parameters are not
read. -/
def Decoded.instr (d : Decoded) (r1 r2 r3 : Word) : Instr :=
  match d.op with
  | .add => .add ⟨d.m1, r1⟩ ⟨d.m2, r2⟩ ⟨d.m3, r3⟩
  | .mul => .mul ⟨d.m1, r1⟩ ⟨d.m2, r2⟩ ⟨d.m3, r3⟩
  | .input => .input ⟨d.m1, r1⟩
  | .output => .output ⟨d.m1, r1⟩
  | .jumpIfTrue => .jumpIfTrue ⟨d.m1, r1⟩ ⟨d.m2, r2⟩
  | .jumpIfFalse => .jumpIfFalse ⟨d.m1, r1⟩ ⟨d.m2, r2⟩
  | .lessThan => .lessThan ⟨d.m1, r1⟩ ⟨d.m2, r2⟩ ⟨d.m3, r3⟩
  | .equals => .equals ⟨d.m1, r1⟩ ⟨d.m2, r2⟩ ⟨d.m3, r3⟩
  | .adjustRelativeBase => .adjustRelativeBase ⟨d.m1, r1⟩
  | .halt => .halt

/-- Why a list of words is no instruction. -/
inductive DecodeReject where
  /-- The Decoder reports the first word invalid, with this kind (R67, R68). -/
  | invalid (kind : FaultKind)
  /-- The list ends before the instruction does (for a fetch: a parameter address beyond `MAX`, R92). -/
  | truncated
  deriving DecidableEq, Repr

/-- The instruction at the head of a list of words, and the words after it (R60, R68). -/
def decode : List Word → Except DecodeReject (Instr × List Word)
  | [] => .error .truncated
  | w :: rest =>
    match decodeWord w with
    | .error k => .error (.invalid k)
    | .ok d =>
      match d.op.params, rest with
      | 0, ws => .ok (d.instr 0 0 0, ws)
      | 1, r1 :: ws => .ok (d.instr r1 0 0, ws)
      | 2, r1 :: r2 :: ws => .ok (d.instr r1 r2 0, ws)
      | 3, r1 :: r2 :: r3 :: ws => .ok (d.instr r1 r2 r3, ws)
      | _, _ => .error .truncated

/-- The instruction word of an opcode with modes `m1`, `m2`, `m3` (R70). -/
def encodeWord (op : Opcode) (m1 m2 m3 : Mode) : Word :=
  BitVec.ofNat 64 (op.code + 100 * m1.digit + 1000 * m2.digit + 10000 * m3.digit)

/-- The words of an instruction: the instruction word, then the raw parameters in parameter order (R60, R70). The digit
of an absent parameter is 0, that is position. -/
def encode : Instr → List Word
  | .add a b dst => [encodeWord .add a.mode b.mode dst.mode, a.raw, b.raw, dst.raw]
  | .mul a b dst => [encodeWord .mul a.mode b.mode dst.mode, a.raw, b.raw, dst.raw]
  | .input dst => [encodeWord .input dst.mode .position .position, dst.raw]
  | .output a => [encodeWord .output a.mode .position .position, a.raw]
  | .jumpIfTrue a b => [encodeWord .jumpIfTrue a.mode b.mode .position, a.raw, b.raw]
  | .jumpIfFalse a b => [encodeWord .jumpIfFalse a.mode b.mode .position, a.raw, b.raw]
  | .lessThan a b dst => [encodeWord .lessThan a.mode b.mode dst.mode, a.raw, b.raw, dst.raw]
  | .equals a b dst => [encodeWord .equals a.mode b.mode dst.mode, a.raw, b.raw, dst.raw]
  | .adjustRelativeBase a => [encodeWord .adjustRelativeBase a.mode .position .position, a.raw]
  | .halt => [encodeWord .halt .position .position .position]

/-- The instruction's opcode (R71). -/
def Instr.op : Instr → Opcode
  | .add _ _ _ => .add
  | .mul _ _ _ => .mul
  | .input _ => .input
  | .output _ => .output
  | .jumpIfTrue _ _ => .jumpIfTrue
  | .jumpIfFalse _ _ => .jumpIfFalse
  | .lessThan _ _ _ => .lessThan
  | .equals _ _ _ => .equals
  | .adjustRelativeBase _ => .adjustRelativeBase
  | .halt => .halt

/-- The instruction's operands, in parameter order (R60). -/
def Instr.operands : Instr → List Operand
  | .add a b dst => [a, b, dst]
  | .mul a b dst => [a, b, dst]
  | .input dst => [dst]
  | .output a => [a]
  | .jumpIfTrue a b => [a, b]
  | .jumpIfFalse a b => [a, b]
  | .lessThan a b dst => [a, b, dst]
  | .equals a b dst => [a, b, dst]
  | .adjustRelativeBase a => [a]
  | .halt => []

/-- Word `k` of an instruction whose `nbits` bits are the number `w`, bit 0 the least significant bit of the first word,
each further word 64 bits on, every bit from `nbits` up 0 (assumption log 6). -/
def tableWord (nbits w k : Nat) : Word := BitVec.ofNat 64 (w % 2 ^ nbits / 2 ^ (64 * k))

/-- The words of such an instruction, up to the longest instruction's length. -/
def tableWords (nbits w : Nat) : List Word := (List.range Config.maxLength).map (tableWord nbits w)

/-- The instruction the Decoder reads from an instruction whose bits are `w` (assumption log 6). -/
def decodeTableWord (nbits w : Nat) : Option Instr :=
  match decode (tableWords nbits w) with
  | .ok (i, _) => some i
  | .error _ => none

end Sys2Proof
end

