-- ==== Sys2Proof/Machine/State.lean ====
section
/-! DEFINITION. The state of one VM instance (R21 to R31) with the resume call in progress and the host's side of it, as
plain data; the reasons a step can stop; the state after reset (R230). -/

namespace Sys2Proof.Machine

/-- A fault of the MODEL: a step that has no next state. There is none. Every fatal error of the spec has a described
entry (the instance becomes `Faulted`, R175, R207) and is taken as a next state, so this type has no constructor and no
step raises one (safe; assumption log 8). -/
inductive Fault where
  deriving DecidableEq, Repr

/-- A refusal of the MODEL. -/
inductive Refusal where
  /-- Raised by an arm of `exec` whose instruction has no meaning yet; safe. No arm raises it: all ten have one. -/
  | notModelled (mnemonic : String)
  deriving DecidableEq, Repr

/-- The state of the per-instance state machine (R24). -/
inductive Status where
  /-- the instance may execute cycles when resumed -/
  | running
  /-- the last cycle was an INPUT that found the queue empty -/
  | awaitingInput
  /-- HALT was executed; terminal -/
  | halted
  /-- a fatal error ended the instance; terminal; holds the fault record -/
  | faulted (kind : FaultKind) (fip : Word)
  deriving DecidableEq, Repr

/-- Memory: the words that differ from what an unwritten address reads as, in rising address order (R31, R40). -/
abbrev Memory := List (Nat × Word)

/-- The three signals of a resume call (R18). -/
inductive Signal where
  | output (v : Word)
  | needsInput
  | halted
  deriving DecidableEq, Repr

/-- The operations the host can call on an instance (R189); `construct` makes an instance and is not a call on one. -/
inductive HostCall where
  /-- R180 -/
  | enqueue (v : Word)
  /-- R171; the optional input -/
  | resume (input : Option Word)
  /-- R181; any integer may be passed -/
  | peek (address : Int)
  /-- R182 -/
  | snapshot
  deriving DecidableEq, Repr

/-- What the host receives (R18, R181, R182). -/
inductive Reply where
  /-- a resume call's signal -/
  | signal (g : Signal)
  /-- a resume call's fatal error `Fault(kind, ip)` -/
  | fault (kind : FaultKind) (ip : Word)
  /-- the word a peek read -/
  | word (v : Word)
  /-- the error a peek returned; the instance does not fault -/
  | peekError (kind : FaultKind)
  /-- a snapshot of memory -/
  | view (m : Memory)
  deriving DecidableEq, Repr

/-- One VM instance (R33) and its host's side. -/
structure State where
  /-- `M` (R31) -/
  mem     : Memory
  /-- the instruction pointer `ip` (R21) -/
  ip      : Word
  /-- the relative base `rb` (R22) -/
  rb      : Word
  /-- the halted flag (R23) -/
  halted  : Bool
  /-- the suspension status (R24) -/
  status  : Status
  /-- the input queue `Q`, oldest first (R30) -/
  queue   : List Word
  /-- a resume call is active (R90, R176) -/
  inCall  : Bool
  /-- the model's own: the calls the host is still to make, next first (assumption log 4) -/
  calls   : List HostCall
  /-- the model's own: what the host has received, oldest first (assumption log 4) -/
  replies : List Reply
  deriving DecidableEq, Repr

/-- The state after reset (R230), of the instance constructed from the empty program (R178): nothing placed in memory.
The last three fields are the model's own: no call active, none to come, nothing received (assumption log 4). -/
def State.reset : State where
  mem := []
  ip := 0
  rb := 0
  halted := false
  status := .running
  queue := []
  inCall := false
  calls := []
  replies := []

/-- The ends of a cycle that raises no fault (R90): the state committed, with the signal if any. -/
inductive CycleEnd where
  /-- `Continue` -/
  | proceed (t : State)
  /-- `Emit(v)` -/
  | emit (v : Word) (t : State)
  /-- `Halt` -/
  | halt (t : State)
  /-- `Starve`: no state written -/
  | starve
  deriving DecidableEq, Repr

end Sys2Proof.Machine
end

