-- ==== Sys2Proof/Machine/Ops.lean ====
section
/-! DEFINITION. The named operations over memory, registers, the queue and the host's record (R13 to R17), taking a fatal
error, and ending a cycle (R96, R170). -/

namespace Sys2Proof.Machine

/-- The spec's numeric fault codes (R200, D11). -/
def faultCode : FaultKind → Nat
  | .malformedOpcode => 1
  | .invalidMode => 2
  | .undefinedAddress => 3
  | .overflow => 4
  | .inputStarvation => 5
  | .resumeAfterHalt => 6

/-- A value lies in the 64-bit signed domain (R11, R20). -/
abbrev InDomain (v : Int) : Prop := Config.minValue ≤ v ∧ v ≤ Config.maxValue

/-- `chk(v)`: narrow an exact result to the 64-bit domain, or raise `Overflow` (R13). -/
def chk (v : Int) : Except FaultKind Word :=
  if InDomain v then .ok (BitVec.ofInt 64 v) else .error .overflow

/-- `MemRead(a, 1)` (R15): the stored word, or what an unwritten address reads as. -/
def Memory.read : Memory → Nat → Word
  | [], _ => Config.unwritten
  | (k, x) :: m, a => if a = k then x else Memory.read m a

/-- A word put before a memory's cells, unless it is what an unlisted address reads as. -/
def Memory.consCell (a : Nat) (v : Word) (m : Memory) : Memory :=
  if v = Config.unwritten then m else (a, v) :: m

/-- `MemWrite(a, 1, v)` (R15), keeping the canonical form. -/
def Memory.write : Memory → Nat → Word → Memory
  | [], a, v => Memory.consCell a v []
  | (k, x) :: m, a, v =>
    if a < k then Memory.consCell a v ((k, x) :: m)
    else if a = k then Memory.consCell a v m
    else (k, x) :: Memory.write m a v

/-- The canonical form of a memory: addresses strictly rising and within the address domain, no cell equal to what an
unlisted address reads as. -/
abbrev Memory.wf (m : Memory) : Prop :=
  m.Pairwise (fun c d => c.1 < d.1) ∧ ∀ c ∈ m, c.2 ≠ Config.unwritten ∧ c.1 ≤ Config.maxAddress

/-- The memory that holds a list of words at consecutive addresses from `a` on, and is unwritten elsewhere (R48). -/
def Memory.load (a : Nat) : List Word → Memory
  | [] => []
  | v :: vs => Memory.consCell a v (Memory.load (a + 1) vs)

/-- `Q.push(v)` (R16). -/
def State.push (s : State) (v : Word) : State := { s with queue := s.queue ++ [v] }

/-- One word stored, `MemWrite(dst, 1, v)` (R96). -/
def State.store (s : State) (a : Nat) (v : Word) : State := { s with mem := s.mem.write a v }

/-- `ip <- t` (R97). -/
def State.goto (s : State) (t : Word) : State := { s with ip := t }

/-- `rb <- v` (R150). -/
def State.setBase (s : State) (v : Word) : State := { s with rb := v }

/-- The state machine's transition to a status (R24, R170). -/
def State.setStatus (s : State) (st : Status) : State := { s with status := st }

/-- The host receives a result (R18). -/
def State.answer (s : State) (r : Reply) : State := { s with replies := s.replies ++ [r] }

/-- The active resume call returns (R171, R176). -/
def State.finish (s : State) (r : Reply) : State := { s.answer r with inCall := false }

/-- Taking a fatal error of kind `k` in the cycle at `ip` (R175, R207, R208): the cycle commits nothing, the instance
becomes `Faulted(k, ip)`, and the resume call returns `Fault(k, ip)`. There is no handler and no return from it (R210,
R211): a later resume returns the same fault (`State.beginResume`). -/
def State.raise (s : State) (k : FaultKind) : State :=
  (s.setStatus (.faulted k s.ip)).finish (.fault k s.ip)

/-- An INPUT starves: no state written, the instance awaits input, and the resume call returns `NeedsInput` (R122,
R174). -/
def State.starve (s : State) : State := (s.setStatus .awaitingInput).finish (.signal .needsInput)

/-- What the Suspension Contract does at the end of a cycle begun in `s` (R170, R171). -/
def conclude (s : State) : Except FaultKind CycleEnd → Host.Outcome State Fault Refusal
  | .error k => .next (s.raise k)
  | .ok (.proceed t) => .next (t.setStatus .running)
  | .ok (.emit v t) => .next ((t.setStatus .running).finish (.signal (.output v)))
  | .ok (.halt t) => .next (t.finish (.signal .halted))
  | .ok .starve => .next s.starve

/-- The sequential next instruction pointer of an instruction of `n` words, `chk(fip + n)` (R97). -/
def sequential (s : State) (n : Int) : Except FaultKind Word := chk (s.ip.toInt + n)

end Sys2Proof.Machine
end

