-- ==== Sys2Proof/Machine/Operands.lean ====
section
/-! DEFINITION. The Addressing Resolver (R93 to R95): every operand form, for reads and for writes. -/

namespace Sys2Proof.Machine

/-- An effective address reaches memory only when it is not negative (R42, R94). -/
def checkAddress (ea : Word) : Except FaultKind Nat :=
  if ea.toInt < 0 then .error .undefinedAddress else .ok ea.toInt.toNat

/-- The address a position-mode or relative-mode operand names, checked (R94). An immediate operand names none: as an
output operand it is `InvalidMode` (R68, R202; assumption log 9), and the read form does not ask for its address. -/
def effectiveAddress (rb : Word) (o : Operand) : Except FaultKind Nat :=
  match o.mode with
  | .position => checkAddress o.raw
  | .relative => do
      let ea ← chk (rb.toInt + o.raw.toInt)
      checkAddress ea
  | .immediate => .error .invalidMode

/-- `resolveRead`: the value of a read operand (R93). -/
def resolveRead (s : State) (o : Operand) : Except FaultKind Word :=
  match o.mode with
  | .immediate => .ok o.raw
  | .position | .relative => do
      let a ← effectiveAddress s.rb o
      pure (s.mem.read a)

/-- `resolveWrite`: the address of the output operand (R95); no memory is read. -/
def resolveWrite (s : State) (o : Operand) : Except FaultKind Nat := effectiveAddress s.rb o

end Sys2Proof.Machine
end

