-- ==== Sys2Proof/Machine/Flags.lean ====
section
/-! DEFINITION. The block has no flags, condition codes or predicate registers (R27): a comparison's result is a word, 1
or 0, and a jump tests a value operand. What stands here is that result and the two tests. -/

namespace Sys2Proof.Machine

/-- `bool01(c)` (R13): 1 when the condition holds and 0 otherwise. -/
def bool01 (c : Bool) : Int := if c then 1 else 0

/-- The result of LESS_THAN, a signed comparison (R140). -/
def lessThanResult (a b : Int) : Int := bool01 (decide (a < b))

/-- The result of EQUALS (R141). -/
def equalsResult (a b : Int) : Int := bool01 (decide (a = b))

/-- A condition operand counts as true when it is not 0 (R130). -/
def countsTrue (a : Int) : Bool := decide (a ≠ 0)

/-- Only exactly 0 is false (R131). -/
def countsFalse (a : Int) : Bool := decide (a = 0)

end Sys2Proof.Machine
end

