-- ==== Sys2Proof/Machine/Arithmetic.lean ====
section
/-! DEFINITION. ADD and MUL (R110 to R112), and the shape they share with the comparisons: two read operands, one word
written. -/

namespace Sys2Proof.Machine

/-- Steps 4 to 8 of the cycle (R90) for an opcode of arity (2,1) with exact result `f a b`: the operands are resolved in
parameter order, then the result and the next instruction pointer are checked, then both writes are made (R96 to R98). -/
def binaryStore (f : Int → Int → Int) (a b dst : Operand) (s : State) : Except FaultKind CycleEnd := do
  let x ← resolveRead s a
  let y ← resolveRead s b
  let p ← resolveWrite s dst
  let r ← chk (f x.toInt y.toInt)
  let n ← sequential s 4
  pure (.proceed ((s.store p r).goto n))

/-- ADD (R110): writes `a + b`. -/
def execAdd (a b dst : Operand) (s : State) : Host.Outcome State Fault Refusal :=
  conclude s (binaryStore (fun x y => x + y) a b dst s)

/-- MUL (R111): writes `a * b`. -/
def execMul (a b dst : Operand) (s : State) : Host.Outcome State Fault Refusal :=
  conclude s (binaryStore (fun x y => x * y) a b dst s)

end Sys2Proof.Machine
end

