-- ==== Sys2Proof/Machine/Compare.lean ====
section
/-! DEFINITION. LESS_THAN and EQUALS (R140, R141). -/

namespace Sys2Proof.Machine

/-- LESS_THAN (R140): writes 1 if `a < b`, else 0. -/
def execLessThan (a b dst : Operand) (s : State) : Host.Outcome State Fault Refusal :=
  conclude s (binaryStore lessThanResult a b dst s)

/-- EQUALS (R141): writes 1 if `a = b`, else 0. -/
def execEquals (a b dst : Operand) (s : State) : Host.Outcome State Fault Refusal :=
  conclude s (binaryStore equalsResult a b dst s)

end Sys2Proof.Machine
end

