-- ==== Sys2Proof/Machine/Halt.lean ====
section
/-! DEFINITION. HALT (R160). -/

namespace Sys2Proof.Machine

/-- HALT (R160): sets `halted` and `status`; `ip`, `rb`, `M` and `Q` stay (D12, C3). -/
def execHalt (s : State) : Host.Outcome State Fault Refusal :=
  conclude s (.ok (.halt { s with halted := true, status := .halted }))

end Sys2Proof.Machine
end

