-- ==== Sys2Proof/Machine/InputOutput.lean ====
section
/-! DEFINITION. INPUT and OUTPUT (R120 to R123). -/

namespace Sys2Proof.Machine

/-- Steps 4 to 8 of INPUT (R120): every fault check comes before the queue test, and an empty queue leaves no trace
(R98, R122). -/
def dequeueStore (dst : Operand) (s : State) : Except FaultKind CycleEnd := do
  let p ← resolveWrite s dst
  let n ← sequential s 2
  match s.queue with
  | [] => pure .starve
  | v :: q => pure (.proceed (({ s with queue := q }.store p v).goto n))

/-- INPUT (R120): writes the oldest queued value, or suspends. -/
def execInput (dst : Operand) (s : State) : Host.Outcome State Fault Refusal :=
  conclude s (dequeueStore dst s)

/-- Steps 4 to 8 of OUTPUT (R121). -/
def emitOperand (a : Operand) (s : State) : Except FaultKind CycleEnd := do
  let x ← resolveRead s a
  let n ← sequential s 2
  pure (.emit x (s.goto n))

/-- OUTPUT (R121): the resume call returns `Output(a)`. -/
def execOutput (a : Operand) (s : State) : Host.Outcome State Fault Refusal :=
  conclude s (emitOperand a s)

end Sys2Proof.Machine
end

