-- ==== Sys2Proof/Machine/Jumps.lean ====
section
/-! DEFINITION. JUMP_IF_TRUE and JUMP_IF_FALSE (R130 to R132). -/

namespace Sys2Proof.Machine

/-- Steps 4 to 8 of a conditional jump (R130, R131): both operands are resolved whether or not it is taken; a taken jump
writes any target, with no sequential check. -/
def conditionalJump (taken : Int → Bool) (a b : Operand) (s : State) : Except FaultKind CycleEnd := do
  let x ← resolveRead s a
  let y ← resolveRead s b
  if taken x.toInt then pure (.proceed (s.goto y))
  else do
    let n ← sequential s 3
    pure (.proceed (s.goto n))

/-- JUMP_IF_TRUE (R130). -/
def execJumpIfTrue (a b : Operand) (s : State) : Host.Outcome State Fault Refusal :=
  conclude s (conditionalJump countsTrue a b s)

/-- JUMP_IF_FALSE (R131). -/
def execJumpIfFalse (a b : Operand) (s : State) : Host.Outcome State Fault Refusal :=
  conclude s (conditionalJump countsFalse a b s)

end Sys2Proof.Machine
end

