-- ==== Sys2Proof/Machine/RelativeBase.lean ====
section
/-! DEFINITION. ADJUST_RELATIVE_BASE (R150). -/

namespace Sys2Proof.Machine

/-- Steps 4 to 8 of ADJUST_RELATIVE_BASE (R150): the operand is read with the old base. -/
def adjustBase (a : Operand) (s : State) : Except FaultKind CycleEnd := do
  let x ← resolveRead s a
  let nrb ← chk (s.rb.toInt + x.toInt)
  let n ← sequential s 2
  pure (.proceed ((s.setBase nrb).goto n))

/-- ADJUST_RELATIVE_BASE (R150). -/
def execAdjustRelativeBase (a : Operand) (s : State) : Host.Outcome State Fault Refusal :=
  conclude s (adjustBase a s)

end Sys2Proof.Machine
end

