-- ==== Sys2Proof/Machine/Fetch.lean ====
section
/-! DEFINITION. Steps 1 to 3 of the cycle: the fetch of the instruction word and of its raw parameters (R91, R92). -/

namespace Sys2Proof.Machine

/-- The words from address `a` on, up to the longest instruction's length and to the end of the address domain. Reads
have no side effect (R47), so reading more words than the instruction has shows nowhere (assumption log 19). -/
def window (m : Memory) (a : Nat) : List Word :=
  ((List.range Config.maxLength).filter (fun k => a + k ≤ Config.maxAddress)).map (fun k => m.read (a + k))

/-- The instruction at `ip`, or the fault its fetch raises: a negative `fip`, an invalid instruction word, or a parameter
address beyond `MAX`, in that order (R91, R92, R98). -/
def fetch (s : State) : Except FaultKind Instr :=
  match checkAddress s.ip with
  | .error k => .error k
  | .ok a =>
    match decode (window s.mem a) with
    | .ok (i, _) => .ok i
    | .error (.invalid k) => .error k
    | .error .truncated => .error .overflow

/-- Memory with a list of words stored at consecutive addresses from `a` on, as far as the address domain goes. -/
def placeWords (m : Memory) (a : Nat) : List Word → Memory
  | [] => m
  | v :: vs => placeWords (if a ≤ Config.maxAddress then m.write a v else m) (a + 1) vs

/-- Cycles may run in this status when a resume call is active (R90). -/
def Status.runnable : Status → Bool
  | .running | .awaitingInput => true
  | .halted | .faulted _ _ => false

/-- The Execution Engine executes a cycle (R90). -/
def State.canCycle (s : State) : Bool := s.inCall && s.status.runnable

/-- `s` with the words `ws` stored where its next instruction is fetched, and a resume call active on it, so that the next
step runs them (assumption log 7). A terminal instance is made runnable for it, and no other is changed. -/
def State.withWords (s : State) (ws : List Word) : State :=
  { s with
    mem := placeWords s.mem s.ip.toInt.toNat ws
    inCall := true
    status := if s.status.runnable then s.status else .running
    halted := if s.status.runnable then s.halted else false }

end Sys2Proof.Machine
end

