-- ==== Sys2Proof/Machine/HostOps.lean ====
section
/-! DEFINITION. The host operations (R171, R177 to R182): construct, enqueue, the start of a resume call, peek,
snapshot. -/

namespace Sys2Proof.Machine

/-- `construct(program)` (R178): a new instance in the reset state with the program in memory; refused when an element
lies outside the 64-bit domain (D19) or the program is longer than the address domain (assumption log 11). -/
def State.construct (program : List Int) : Option State :=
  if (∀ v ∈ program, InDomain v) ∧ program.length ≤ Config.maxAddress + 1 then
    some { State.reset with mem := Memory.load 0 (program.map (BitVec.ofInt 64)) }
  else none

/-- `resume(opt)` up to its first cycle (R171): on a terminal instance it returns that instance's fault and discards the
input (R172, R175); otherwise the input is queued (R177), the status becomes `Running` and the call is active. -/
def State.beginResume (s : State) (input : Option Word) : State :=
  match s.status with
  | .halted => s.answer (.fault .resumeAfterHalt s.ip)
  | .faulted k f => s.answer (.fault k f)
  | .running | .awaitingInput =>
    { s with queue := s.queue ++ input.toList, status := .running, inCall := true }

/-- `peek(a)` (R181): the word at `a`, or `UndefinedAddress` to the host; the instance is unchanged. -/
def State.peek (s : State) (a : Int) : Reply :=
  if 0 ≤ a ∧ a ≤ Config.maxValue then .word (s.mem.read a.toNat) else .peekError .undefinedAddress

/-- One host call served between resume calls (R171, R180 to R182). -/
def State.serve (s : State) (c : HostCall) : State :=
  match c with
  | .enqueue v => s.push v
  | .resume input => s.beginResume input
  | .peek a => s.answer (s.peek a)
  | .snapshot => s.answer (.view s.mem)

end Sys2Proof.Machine
end

