-- ==== Sys2Proof/Machine/Step.lean ====
section
/-! DEFINITION. The step: one instruction cycle while a resume call is active, else the host's next call, else nothing
(R10, R90, R176). -/

namespace Sys2Proof.Machine

/-- One instruction cycle (R90). -/
def cycle (s : State) : Host.Outcome State Fault Refusal :=
  match fetch s with
  | .error k => .next (s.raise k)
  | .ok i => exec i s

/-- One step (assumption log 3): a cycle when the engine may execute one (R90); otherwise the host makes its next call
(R189); with no call to make the instance does nothing (R176). -/
def step (s : State) : Host.Outcome State Fault Refusal :=
  if s.canCycle then cycle s
  else
    match s.calls with
    | [] => .next s
    | c :: cs => .next ({ s with calls := cs }.serve c)

/-- `s` with the instruction whose bits are `w` stored where the next step fetches, and a resume call active (assumption
log 6, 7). -/
def State.withFetchWord (s : State) (nbits w : Nat) : State := s.withWords (tableWords nbits w)

end Sys2Proof.Machine
end

