-- ==== Sys2Proof/Machine/Assembly.lean ====
section
/-! DEFINITION. The spec's assembly notation (R80), its pseudo-instructions (R81) and its disassembly convention (R82). It
does not affect the block. -/

namespace Sys2Proof.Machine

/-- The source's mnemonic (R71). -/
def mnemonic : Opcode → String
  | .add => "ADD"
  | .mul => "MUL"
  | .input => "INPUT"
  | .output => "OUTPUT"
  | .jumpIfTrue => "JUMP_IF_TRUE"
  | .jumpIfFalse => "JUMP_IF_FALSE"
  | .lessThan => "LESS_THAN"
  | .equals => "EQUALS"
  | .adjustRelativeBase => "ADJUST_RELATIVE_BASE"
  | .halt => "HALT"

/-- The opcode a mnemonic or one of the short aliases names (R80). -/
def opcodeNamed : String → Option Opcode
  | "ADD" => some .add
  | "MUL" => some .mul
  | "INPUT" | "IN" => some .input
  | "OUTPUT" | "OUT" => some .output
  | "JUMP_IF_TRUE" | "JT" => some .jumpIfTrue
  | "JUMP_IF_FALSE" | "JF" => some .jumpIfFalse
  | "LESS_THAN" | "LT" => some .lessThan
  | "EQUALS" | "EQ" => some .equals
  | "ADJUST_RELATIVE_BASE" | "ARB" => some .adjustRelativeBase
  | "HALT" => some .halt
  | _ => none

/-- A signed decimal integer or a label (R80). -/
inductive AsmExpr where
  | num (v : Int)
  | label (name : String)
  deriving DecidableEq, Repr

/-- A written operand (R80): `[e]`, `#e`, `[rb+e]`, `[rb-e]`. -/
inductive AsmOperand where
  | position (e : AsmExpr)
  | immediate (e : AsmExpr)
  | relativePlus (e : AsmExpr)
  | relativeMinus (e : AsmExpr)
  deriving DecidableEq, Repr

/-- A statement (R80) or a pseudo-instruction (R81). -/
inductive AsmStmt where
  | op (op : Opcode) (operands : List AsmOperand)
  | words (vs : List Int)
  | jmp (t : AsmOperand)
  | mov (d s : AsmOperand)
  | nop
  deriving DecidableEq, Repr

/-- A statement with the label defined before it, if any (R80). -/
structure AsmLine where
  label : Option String
  stmt  : AsmStmt
  deriving DecidableEq, Repr

/-- Each pseudo-instruction is one real instruction (R81). -/
def AsmStmt.expand : AsmStmt → AsmStmt
  | .jmp t => .op .jumpIfTrue [.immediate (.num 1), t]
  | .mov d s => .op .add [s, .immediate (.num 0), d]
  | .nop => .op .jumpIfFalse [.immediate (.num 1), .immediate (.num 0)]
  | st => st

/-- How many words a statement takes (R60, R80). -/
def AsmStmt.size (st : AsmStmt) : Nat :=
  match st.expand with
  | .op o _ => 1 + o.params
  | .words vs => vs.length
  | _ => 0

/-- The labels of a listing whose first word is at `a`, each with the address of its statement's first word (R80). -/
def labelTable (a : Nat) : List AsmLine → List (String × Int)
  | [] => []
  | l :: ls =>
    let rest := labelTable (a + l.stmt.size) ls
    match l.label with
    | some name => (name, (a : Int)) :: rest
    | none => rest

/-- An expression's value; an undefined label has none (assumption log 16). -/
def AsmExpr.value (labels : List (String × Int)) : AsmExpr → Option Int
  | .num v => some v
  | .label name => labels.lookup name

/-- A written operand's mode and raw value (R80). -/
def AsmOperand.value (labels : List (String × Int)) : AsmOperand → Option (Mode × Int)
  | .position e => (e.value labels).map (fun v => (.position, v))
  | .immediate e => (e.value labels).map (fun v => (.immediate, v))
  | .relativePlus e => (e.value labels).map (fun v => (.relative, v))
  | .relativeMinus e => (e.value labels).map (fun v => (.relative, -v))

/-- The instruction word of an opcode with one mode for each of its parameters, when that word is valid (R68, R70). -/
def wordWithModes (op : Opcode) (modes : List Mode) : Option Word :=
  let d : Decoded := ⟨op, modes.getD 0 .position, modes.getD 1 .position, modes.getD 2 .position⟩
  let w := encodeWord d.op d.m1 d.m2 d.m3
  if modes.length = op.params ∧ decodeWord w = .ok d then some w else none

/-- The words of one statement; refused when an operand has no value, when there are not as many operands as the opcode
has parameters, or when the instruction word would be invalid (assumption log 16). -/
def AsmStmt.assemble (labels : List (String × Int)) (st : AsmStmt) : Option (List Int) :=
  match st.expand with
  | .words vs => some vs
  | .op o operands =>
    match operands.mapM (AsmOperand.value labels) with
    | none => none
    | some ps => (wordWithModes o (ps.map (·.1))).map (fun w => w.toInt :: ps.map (·.2))
  | _ => none

/-- The program a listing assembles to, from address 0 (R80). -/
def assemble (listing : List AsmLine) : Option (List Int) :=
  (listing.mapM (fun (l : AsmLine) => l.stmt.assemble (labelTable 0 listing))).map List.flatten

/-- An operand as it is written (R80). -/
def operandText (o : Operand) : String :=
  let e := o.raw.toInt
  match o.mode with
  | .position => "[" ++ toString e ++ "]"
  | .immediate => "#" ++ toString e
  | .relative => if 0 ≤ e then "[rb+" ++ toString e ++ "]" else "[rb-" ++ toString (-e) ++ "]"

/-- An instruction as it is written: the mnemonic, then the operands in parameter order (R80). -/
def instrText (i : Instr) : String :=
  match i.operands.map operandText with
  | [] => mnemonic i.op
  | ps => mnemonic i.op ++ " " ++ ", ".intercalate ps

/-- What the disassembler finds at an address (R82). -/
inductive Listing where
  | instr (i : Instr)
  | word (w : Word)
  deriving DecidableEq, Repr

/-- The disassembly at address `a`: the instruction when the word there is valid, with its operands from the next words,
else the word (R82; assumption log 17). -/
def disassemble (m : Memory) (a : Nat) : Listing :=
  match decode ((List.range Config.maxLength).map (fun k => m.read (a + k))) with
  | .ok (i, _) => .instr i
  | .error _ => .word (m.read a)

/-- The line the disassembler prints (R82). -/
def Listing.text : Listing → String
  | .instr i => instrText i
  | .word w => ".word " ++ toString w.toInt

end Sys2Proof.Machine
end

