-- ==== Sys2Proof/Machine/Drive.lean ====
section
/-! DEFINITION. The resume call as a whole and the drive styles built on it (R171, R183 to R188). These are host policies:
nothing in the block's state records them. A call may not return (R183), so each function takes fuel, and running out of
fuel is no result, never an end (D22; assumption log 12). -/

namespace Sys2Proof.Machine

/-- At most `fuel` cycles, until the active resume call returns (R171). -/
def runCall : Nat → State → Option State
  | 0, s => if s.inCall then none else some s
  | fuel + 1, s =>
    if s.inCall then
      match step s with
      | .next t => runCall fuel t
      | .fault _ => none
      | .refused _ => none
    else some s

/-- `resume(opt)` (R171): the one result the call returns (R176), and the instance after it. -/
def State.resume (fuel : Nat) (input : Option Word) (s : State) : Option (Reply × State) :=
  match runCall fuel (s.beginResume input) with
  | none => none
  | some t => t.replies.getLast?.map (fun r => (r, t))

/-- How a driven run ends. -/
inductive DriveEnd where
  /-- `construct` refused the program (R178) -/
  | refused
  /-- the instance halted; the outputs it produced, in order -/
  | halted (outs : List Word)
  /-- a fatal error, the batch driver's `InputStarvation` among them (R185) -/
  | failed (kind : FaultKind) (ip : Word) (outs : List Word)
  /-- the stepwise driver has no further input and abandons the waiting instance (R179) -/
  | waiting (ip : Word) (outs : List Word)
  deriving DecidableEq, Repr

/-- The batch driver's loop: call `resume(none)` until `Halted` or a fatal error; `NeedsInput` is fatal (R185, C4). -/
def batchLoop (fuel : Nat) : Nat → State → List Word → Option DriveEnd
  | 0, _, _ => none
  | n + 1, s, outs =>
    match s.resume fuel none with
    | some (.signal (.output v), t) => batchLoop fuel n t (outs ++ [v])
    | some (.signal .needsInput, t) => some (.failed .inputStarvation t.ip outs)
    | some (.signal .halted, _) => some (.halted outs)
    | some (.fault k f, _) => some (.failed k f outs)
    | _ => none

/-- Batch drive (R185): construct, pre-load every input, run. -/
def runBatch (fuel : Nat) (program : List Int) (inputs : List Word) : Option DriveEnd :=
  match State.construct program with
  | none => some .refused
  | some s => batchLoop fuel fuel (inputs.foldl State.push s) []

/-- The stepwise driver's loop (R187): resume with no input until `NeedsInput`, decide the next input from the number of
inputs given so far and the outputs observed, resume with that input, repeat. -/
def stepwiseLoop (fuel : Nat) (policy : Nat → List Word → Option Word) :
    Nat → Nat → Option Word → State → List Word → Option DriveEnd
  | 0, _, _, _, _ => none
  | n + 1, given, input, s, outs =>
    match s.resume fuel input with
    | some (.signal (.output v), t) => stepwiseLoop fuel policy n given none t (outs ++ [v])
    | some (.signal .needsInput, t) =>
      match policy given outs with
      | none => some (.waiting t.ip outs)
      | some v => stepwiseLoop fuel policy n (given + 1) (some v) t outs
    | some (.signal .halted, _) => some (.halted outs)
    | some (.fault k f, _) => some (.failed k f outs)
    | _ => none

/-- Stepwise drive (R187; assumption log 15). -/
def runStepwise (fuel : Nat) (program : List Int) (policy : Nat → List Word → Option Word) : Option DriveEnd :=
  match State.construct program with
  | none => some .refused
  | some s => stepwiseLoop fuel policy fuel 0 none s []

/-- The inputs that supply a line of text under the character-stream convention (R186): the ASCII code of each character,
then 10. DESIGN CHOICE: a character that has no ASCII code, of which R186 does not speak, gives its Unicode code point
(assumption log 21). -/
def lineInputs (text : List Char) : List Word := text.map (fun c => BitVec.ofNat 64 c.toNat) ++ [10]

/-- The first line a driver assembles from output values, up to the value 10, and the values after it (R186). -/
def takeLine : List Word → Option (List Word × List Word)
  | [] => none
  | v :: vs => if v = 10 then some ([], vs) else (takeLine vs).map (fun p => (v :: p.1, p.2))

end Sys2Proof.Machine
end

