-- ==== Sys2Proof/Machine/Compose.lean ====
section
/-! DEFINITION. Composed drive (R5, R33, R54, R187, R217): several instances under one orchestrator, which resumes them one
at a time in a fixed order and passes outputs on as messages. -/

namespace Sys2Proof.Machine

/-- An orchestrator's state (assumption log 14). -/
structure Composition where
  /-- the instances, told apart by their place in the list (R217) -/
  instances : List State
  /-- the messages waiting for each instance, oldest first -/
  pending   : List (List Word)
  /-- where each instance's outputs go: the place of an instance, or any other number for the outside -/
  route     : List Nat
  /-- the values sent to the outside, oldest first -/
  outputs   : List Word
  /-- the fault that ended the composition, with the place of the instance that returned it (R187) -/
  failed    : Option (Nat × FaultKind × Word)
  deriving DecidableEq, Repr

/-- A message put in line for the receiver of instance `i`'s outputs (R54, R187). -/
def Composition.deliver (c : Composition) (i : Nat) (v : Word) : Composition :=
  match c.route[i]? with
  | none => { c with outputs := c.outputs ++ [v] }
  | some j =>
    match c.pending[j]? with
    | none => { c with outputs := c.outputs ++ [v] }
    | some q => { c with pending := c.pending.set j (q ++ [v]) }

/-- One turn of instance `i`: one resume call, with the oldest message waiting for it if there is one, up to its next
suspension point (R187). A halted instance is not resumed again (R189), and a fault of any instance is fatal to the whole
composition (R187). -/
def Composition.turn (fuel : Nat) (c : Composition) (i : Nat) : Option Composition :=
  if c.failed.isSome then some c
  else match c.instances[i]? with
    | none => some c
    | some s =>
      if s.status = .halted then some c
      else
        let waiting := c.pending[i]?.getD []
        match s.resume fuel waiting.head? with
        | none => none
        | some (r, t) =>
          let c' := { c with instances := c.instances.set i t, pending := c.pending.set i waiting.tail }
          match r with
          | .signal (.output v) => some (c'.deliver i v)
          | .fault k f => some { c' with failed := some (i, k, f) }
          | _ => some c'

/-- The turns of a schedule, in its order (R187). -/
def Composition.run (fuel : Nat) : List Nat → Composition → Option Composition
  | [], c => some c
  | i :: is, c =>
    match c.turn fuel i with
    | none => none
    | some c' => Composition.run fuel is c'

end Sys2Proof.Machine
end

