-- ==== Sys2Proof/Safety.lean ====
section
/-! DEFINITION. The machine's invariant, and what a safe run is: no fatal error (R175). -/

namespace Sys2Proof.Machine

/-- The fault kinds a cycle can raise (R200). -/
def raisedByCycle : FaultKind → Bool
  | .malformedOpcode | .invalidMode | .undefinedAddress | .overflow => true
  | .inputStarvation | .resumeAfterHalt => false

/-- The relations between fields that hold in every state a run reaches: memory is in canonical form; `halted` is true
exactly when `status` is Halted (R23); a fault record names the current `ip` and a kind a cycle raises (R207, R208); a
call is active only in status Running (R171). -/
structure State.Inv (s : State) : Prop where
  mem_wf : s.mem.wf
  halted_iff : s.halted = true ↔ s.status = .halted
  fault_record : ∀ k f, s.status = .faulted k f → f = s.ip ∧ raisedByCycle k = true
  call_running : s.inCall = true → s.status = .running

/-- No fatal error has ended the instance (R24). -/
def State.safe (s : State) : Prop := ∀ k f, s.status ≠ .faulted k f

/-- A run of `n` steps from `s` stays safe. -/
def SafeRun : Nat → State → Prop
  | 0, s => s.safe
  | n + 1, s => s.safe ∧ ∀ t, step s = .next t → SafeRun n t

end Sys2Proof.Machine
end

