-- ==== Sys2Proof/Certificates/Slice0/Obligations.lean ====
section
/-! DEFINITION. The statements about the model, for the provers. -/

namespace Sys2Proof.Claims

open Sys2Proof.Machine

/-- The state after a cycle begun in `s` raised fault kind `k`: only the status, the active call and the host's record
differ (R175, R207, R208). -/
def faultedAt (s : State) (k : FaultKind) : State :=
  { s with status := .faulted k s.ip, inCall := false, replies := s.replies ++ [.fault k s.ip] }

/-- The ten opcodes (R71). -/
def opcodes : List Opcode :=
  [.add, .mul, .input, .output, .jumpIfTrue, .jumpIfFalse, .lessThan, .equals, .adjustRelativeBase, .halt]

/-- The allowed modes of parameter `k` (R69): any for an input parameter, position or relative for an output parameter,
digit 0 for an absent one. -/
def allowedModes (op : Opcode) (k : Nat) : List Mode :=
  if k ≤ op.nin then [.position, .immediate, .relative]
  else if k ≤ op.nin + op.nout then [.position, .relative]
  else [.position]

/-- The valid instruction words of an opcode, as R69 lists them. -/
def validWords (op : Opcode) : List Word :=
  (allowedModes op 1).flatMap fun m1 => (allowedModes op 2).flatMap fun m2 => (allowedModes op 3).map fun m3 =>
    BitVec.ofNat 64 (op.code + 100 * m1.digit + 1000 * m2.digit + 10000 * m3.digit)

/-- A stepwise run that waits for an input that does not come is, under batch drive, an `InputStarvation` (R205). -/
def asBatchEnd : DriveEnd → DriveEnd
  | .waiting ip outs => .failed .inputStarvation ip outs
  | e => e

end Sys2Proof.Claims

open Sys2Proof Sys2Proof.Machine Sys2Proof.Claims

/-! ### Reset and construction -/

/-- R230: what construction leaves in every piece of state. The length premise is the model's own (assumption log 11). -/
def Obligations.ConstructGivesResetState : Prop :=
  ∀ program : List Int, (∀ v ∈ program, InDomain v) → program.length ≤ Config.maxAddress + 1 →
    ∃ s, State.construct program = some s ∧
      (∀ (i : Nat) (h : i < program.length), (s.mem.read i).toInt = program[i]) ∧
      (∀ a : Nat, program.length ≤ a → s.mem.read a = 0) ∧
      s.ip = 0 ∧ s.rb = 0 ∧ s.halted = false ∧ s.status = .running ∧ s.queue = []

/-- R178: a program with an element outside the domain is refused, and the empty program is accepted: its first cycle
faults with `MalformedOpcode(0)`. -/
def Obligations.ConstructRefusesAndAccepts : Prop :=
  (∀ program : List Int, (∃ v ∈ program, ¬InDomain v) → State.construct program = none) ∧
  State.construct [] = some State.reset ∧
  step (State.reset.beginResume none) = .next (faultedAt (State.reset.beginResume none) .malformedOpcode)

/-- The invariant holds at reset. -/
def Obligations.ResetMeetsInvariant : Prop := State.reset.Inv

/-! ### Encoding -/

/-- Every operand of every well-formed instruction survives encoding and decoding, whatever words follow. -/
def Obligations.DecodeReadsBackEncode : Prop :=
  ∀ (i : Instr) (rest : List Word), i.wf = true → decode (encode i ++ rest) = .ok (i, rest)

/-- What decodes is well-formed, and the words it was read from are its encoding. -/
def Obligations.DecodedInstructionIsItsWords : Prop :=
  ∀ (ws rest : List Word) (i : Instr), decode ws = .ok (i, rest) → i.wf = true ∧ encode i ++ rest = ws

/-- R70: the value of an encoded instruction word, and both round trips between a valid word and its fields. -/
def Obligations.WordFieldsRoundTrip : Prop :=
  (∀ (op : Opcode) (m1 m2 m3 : Mode),
    (encodeWord op m1 m2 m3).toInt = op.code + 100 * m1.digit + 1000 * m2.digit + 10000 * m3.digit) ∧
  (∀ (w : Word) (d : Decoded), decodeWord w = .ok d → encodeWord d.op d.m1 d.m2 d.m3 = w) ∧
  (∀ d : Decoded, encodeWord d.op d.m1 d.m2 d.m3 ∈ validWords d.op →
    decodeWord (encodeWord d.op d.m1 d.m2 d.m3) = .ok d)

/-- R69: a word decodes exactly when it is one of the listed words, and there are 99 of them, counted per opcode. -/
def Obligations.NinetyNineValidWords : Prop :=
  (∀ w : Word, (∃ d, decodeWord w = .ok d) ↔ w ∈ opcodes.flatMap validWords) ∧
  (opcodes.flatMap validWords).Nodup ∧ (opcodes.flatMap validWords).length = 99 ∧
  opcodes.map (fun op => (validWords op).length) = [18, 18, 2, 3, 9, 9, 18, 18, 3, 1]

/-- R67: `MalformedOpcode` is reported exactly for a negative word and for an opcode not in the table. -/
def Obligations.MalformedOpcodeExactly : Prop :=
  ∀ w : Word, decodeWord w = .error .malformedOpcode ↔
    w.toInt < 0 ∨ w.toInt % 100 ∉ ([1, 2, 3, 4, 5, 6, 7, 8, 9, 99] : List Int)

/-- R68: with a valid opcode, `InvalidMode` is reported exactly for an undefined used mode digit, an immediate output
parameter, a non-zero digit of an absent parameter, or a non-zero digit at 10^5 or above; otherwise the word is valid. A
word without a valid opcode reports `MalformedOpcode`, whatever its mode digits are. -/
def Obligations.InvalidModeExactly : Prop :=
  (∀ w : Word, w.toInt < 0 ∨ (∀ op : Opcode, w.toInt % 100 ≠ op.code) →
    decodeWord w = .error .malformedOpcode) ∧
  ∀ (w : Word) (op : Opcode), 0 ≤ w.toInt → w.toInt % 100 = op.code →
    let bad := w.toInt / 100000 ≠ 0 ∨ ∃ k ∈ [1, 2, 3], ∃ m : Int, m = w.toInt / 10 ^ (k + 1) % 10 ∧
      ((op.nin + op.nout < k ∧ m ≠ 0) ∨ (k ≤ op.nin + op.nout ∧ 2 < m) ∨
        (op.nout = 1 ∧ k = op.nin + op.nout ∧ m = 1))
    (bad → decodeWord w = .error .invalidMode) ∧ (¬bad → ∃ d, decodeWord w = .ok d ∧ d.op = op)

/-- Words written out from the spec's encodings, one of each family at least (R61, 95_test_vectors.md). -/
def Obligations.SpecWordsDecode : Prop :=
  decode [1002, 4, 3, 4] = .ok (.mul ⟨.position, 4⟩ ⟨.immediate, 3⟩ ⟨.position, 4⟩, []) ∧
  decode [21101, 2, 3, -4] = .ok (.add ⟨.immediate, 2⟩ ⟨.immediate, 3⟩ ⟨.relative, -4⟩, []) ∧
  decode [203, -3] = .ok (.input ⟨.relative, -3⟩, []) ∧
  decode [104, 7] = .ok (.output ⟨.immediate, 7⟩, []) ∧
  decode [1105, 1, 9] = .ok (.jumpIfTrue ⟨.immediate, 1⟩ ⟨.immediate, 9⟩, []) ∧
  decode [1006, 101, 0] = .ok (.jumpIfFalse ⟨.position, 101⟩ ⟨.immediate, 0⟩, []) ∧
  decode [1107, -5, 3, 20] = .ok (.lessThan ⟨.immediate, -5⟩ ⟨.immediate, 3⟩ ⟨.position, 20⟩, []) ∧
  decode [1008, 100, 16, 101] = .ok (.equals ⟨.position, 100⟩ ⟨.immediate, 16⟩ ⟨.position, 101⟩, []) ∧
  decode [209, 3] = .ok (.adjustRelativeBase ⟨.relative, 3⟩, []) ∧
  decode [99] = .ok (.halt, []) ∧
  decode [103, 9] = .error (.invalid .invalidMode) ∧ decode [-1] = .error (.invalid .malformedOpcode)

/-! ### Fetch -/

/-- A step runs the decoded instruction: when the words at `ip` are the encoding of `i`, the step is `exec i` at that
state, with nothing added around it. -/
def Obligations.StepRunsDecodedInstruction : Prop :=
  ∀ (s : State) (i : Instr), s.canCycle = true → i.wf = true → 0 ≤ s.ip.toInt →
    (∀ (k : Nat) (h : k < (encode i).length),
      s.ip.toInt + k ≤ Config.maxValue ∧ s.mem.read (s.ip.toInt.toNat + k) = (encode i)[k]) →
    step s = exec i s

/-- R91: a fetch at a negative `ip` reads nothing and raises `UndefinedAddress`; otherwise the instruction word is the one
at `ip`, an invalid one raises the Decoder's verdict, and one never written, reading 0, raises `MalformedOpcode`. -/
def Obligations.FetchFaults : Prop :=
  ∀ s : State, s.canCycle = true →
    (s.ip.toInt < 0 → step s = .next (faultedAt s .undefinedAddress)) ∧
    (0 ≤ s.ip.toInt → ∀ i, fetch s = .ok i → (encode i).head? = some (s.mem.read s.ip.toInt.toNat)) ∧
    (0 ≤ s.ip.toInt → ∀ k, decodeWord (s.mem.read s.ip.toInt.toNat) = .error k → step s = .next (faultedAt s k)) ∧
    (0 ≤ s.ip.toInt → s.mem.read s.ip.toInt.toNat = 0 → step s = .next (faultedAt s .malformedOpcode))

/-- R92: a raw-parameter address beyond `MAX` raises `Overflow`. -/
def Obligations.ParameterBeyondMaxOverflows : Prop :=
  ∀ (s : State) (d : Decoded), s.canCycle = true → 0 ≤ s.ip.toInt →
    decodeWord (s.mem.read s.ip.toInt.toNat) = .ok d →
    Config.maxValue < s.ip.toInt + d.op.nin + d.op.nout → step s = .next (faultedAt s .overflow)

/-! ### The resolver -/

/-- R93: the value of a read operand in each mode, with the faults of the effective address. -/
def Obligations.ResolverReadForms : Prop :=
  ∀ (s : State) (raw : Word),
    resolveRead s ⟨.immediate, raw⟩ = .ok raw ∧
    (raw.toInt < 0 → resolveRead s ⟨.position, raw⟩ = .error .undefinedAddress) ∧
    (0 ≤ raw.toInt → resolveRead s ⟨.position, raw⟩ = .ok (s.mem.read raw.toInt.toNat)) ∧
    (¬InDomain (s.rb.toInt + raw.toInt) → resolveRead s ⟨.relative, raw⟩ = .error .overflow) ∧
    (InDomain (s.rb.toInt + raw.toInt) → s.rb.toInt + raw.toInt < 0 →
      resolveRead s ⟨.relative, raw⟩ = .error .undefinedAddress) ∧
    (InDomain (s.rb.toInt + raw.toInt) → 0 ≤ s.rb.toInt + raw.toInt →
      resolveRead s ⟨.relative, raw⟩ = .ok (s.mem.read (s.rb.toInt + raw.toInt).toNat))

/-- R95: the address of the output operand in each mode it may have; no memory is read for it. -/
def Obligations.ResolverWriteForms : Prop :=
  (∀ (s : State) (m : Memory) (o : Operand), resolveWrite { s with mem := m } o = resolveWrite s o) ∧
  ∀ (s : State) (raw : Word),
    (raw.toInt < 0 → resolveWrite s ⟨.position, raw⟩ = .error .undefinedAddress) ∧
    (0 ≤ raw.toInt → resolveWrite s ⟨.position, raw⟩ = .ok raw.toInt.toNat) ∧
    (¬InDomain (s.rb.toInt + raw.toInt) → resolveWrite s ⟨.relative, raw⟩ = .error .overflow) ∧
    (InDomain (s.rb.toInt + raw.toInt) → s.rb.toInt + raw.toInt < 0 →
      resolveWrite s ⟨.relative, raw⟩ = .error .undefinedAddress) ∧
    (InDomain (s.rb.toInt + raw.toInt) → 0 ≤ s.rb.toInt + raw.toInt →
      resolveWrite s ⟨.relative, raw⟩ = .ok (s.rb.toInt + raw.toInt).toNat)

/-! ### The instructions: results and where each completes -/

/-- R110 (steps 5 to 8): ADD writes the exact sum and advances by 4, and raises `Overflow` when the sum or the next `ip`
leaves the domain. -/
def Obligations.AddWritesExactSum : Prop :=
  ∀ (s : State) (a b dst : Operand) (x y : Word) (p : Nat),
    resolveRead s a = .ok x → resolveRead s b = .ok y → resolveWrite s dst = .ok p →
    (InDomain (x.toInt + y.toInt) → s.ip.toInt + 4 ≤ Config.maxValue →
      exec (.add a b dst) s = .next { s with
        mem := s.mem.write p (BitVec.ofInt 64 (x.toInt + y.toInt))
        ip := BitVec.ofInt 64 (s.ip.toInt + 4), status := .running }) ∧
    (¬InDomain (x.toInt + y.toInt) ∨ Config.maxValue < s.ip.toInt + 4 →
      exec (.add a b dst) s = .next (faultedAt s .overflow))

/-- R111 (steps 5 to 8): MUL writes the exact product and advances by 4, and raises `Overflow` when the product or the
next `ip` leaves the domain. -/
def Obligations.MulWritesExactProduct : Prop :=
  ∀ (s : State) (a b dst : Operand) (x y : Word) (p : Nat),
    resolveRead s a = .ok x → resolveRead s b = .ok y → resolveWrite s dst = .ok p →
    (InDomain (x.toInt * y.toInt) → s.ip.toInt + 4 ≤ Config.maxValue →
      exec (.mul a b dst) s = .next { s with
        mem := s.mem.write p (BitVec.ofInt 64 (x.toInt * y.toInt))
        ip := BitVec.ofInt 64 (s.ip.toInt + 4), status := .running }) ∧
    (¬InDomain (x.toInt * y.toInt) ∨ Config.maxValue < s.ip.toInt + 4 →
      exec (.mul a b dst) s = .next (faultedAt s .overflow))

/-- R140 (steps 5 to 8): LESS_THAN writes 1 when `a < b` as signed values, else 0. -/
def Obligations.LessThanWritesSignedComparison : Prop :=
  ∀ (s : State) (a b dst : Operand) (x y : Word) (p : Nat),
    resolveRead s a = .ok x → resolveRead s b = .ok y → resolveWrite s dst = .ok p →
    (s.ip.toInt + 4 ≤ Config.maxValue →
      exec (.lessThan a b dst) s = .next { s with
        mem := s.mem.write p (if x.toInt < y.toInt then 1 else 0)
        ip := BitVec.ofInt 64 (s.ip.toInt + 4), status := .running }) ∧
    (Config.maxValue < s.ip.toInt + 4 → exec (.lessThan a b dst) s = .next (faultedAt s .overflow))

/-- R141 (steps 5 to 8): EQUALS writes 1 when the two values are equal, else 0. -/
def Obligations.EqualsWritesEquality : Prop :=
  ∀ (s : State) (a b dst : Operand) (x y : Word) (p : Nat),
    resolveRead s a = .ok x → resolveRead s b = .ok y → resolveWrite s dst = .ok p →
    (s.ip.toInt + 4 ≤ Config.maxValue →
      exec (.equals a b dst) s = .next { s with
        mem := s.mem.write p (if x = y then 1 else 0)
        ip := BitVec.ofInt 64 (s.ip.toInt + 4), status := .running }) ∧
    (Config.maxValue < s.ip.toInt + 4 → exec (.equals a b dst) s = .next (faultedAt s .overflow))

/-- R120 (steps 5 to 8): INPUT writes the oldest queued value and removes it; with an empty queue it writes nothing and
the call returns `NeedsInput`; the next `ip` is checked before the queue is looked at. -/
def Obligations.InputConsumesOldest : Prop :=
  ∀ (s : State) (dst : Operand) (p : Nat), resolveWrite s dst = .ok p →
    (∀ (v : Word) (q : List Word), s.queue = v :: q → s.ip.toInt + 2 ≤ Config.maxValue →
      exec (.input dst) s = .next { s with
        mem := s.mem.write p v, queue := q, ip := BitVec.ofInt 64 (s.ip.toInt + 2), status := .running }) ∧
    (s.queue = [] → s.ip.toInt + 2 ≤ Config.maxValue →
      exec (.input dst) s = .next { s with
        status := .awaitingInput, inCall := false, replies := s.replies ++ [.signal .needsInput] }) ∧
    (Config.maxValue < s.ip.toInt + 2 → exec (.input dst) s = .next (faultedAt s .overflow))

/-- R121 (steps 5 to 8): OUTPUT advances `ip` and the resume call returns `Output(a)`. -/
def Obligations.OutputReturnsOperand : Prop :=
  ∀ (s : State) (a : Operand) (x : Word), resolveRead s a = .ok x →
    (s.ip.toInt + 2 ≤ Config.maxValue →
      exec (.output a) s = .next { s with
        ip := BitVec.ofInt 64 (s.ip.toInt + 2), status := .running, inCall := false
        replies := s.replies ++ [.signal (.output x)] }) ∧
    (Config.maxValue < s.ip.toInt + 2 → exec (.output a) s = .next (faultedAt s .overflow))

/-- R130 (steps 5 to 8): JUMP_IF_TRUE goes to `b`, whatever it is, when `a` is not 0, and on to the next instruction
otherwise, where alone the sequential check is made. -/
def Obligations.JumpIfTrueJumps : Prop :=
  ∀ (s : State) (a b : Operand) (x y : Word), resolveRead s a = .ok x → resolveRead s b = .ok y →
    (x ≠ 0 → exec (.jumpIfTrue a b) s = .next { s with ip := y, status := .running }) ∧
    (x = 0 → s.ip.toInt + 3 ≤ Config.maxValue →
      exec (.jumpIfTrue a b) s = .next { s with ip := BitVec.ofInt 64 (s.ip.toInt + 3), status := .running }) ∧
    (x = 0 → Config.maxValue < s.ip.toInt + 3 → exec (.jumpIfTrue a b) s = .next (faultedAt s .overflow))

/-- R131 (steps 5 to 8): JUMP_IF_FALSE goes to `b` when `a` is exactly 0, and on to the next instruction otherwise. -/
def Obligations.JumpIfFalseJumps : Prop :=
  ∀ (s : State) (a b : Operand) (x y : Word), resolveRead s a = .ok x → resolveRead s b = .ok y →
    (x = 0 → exec (.jumpIfFalse a b) s = .next { s with ip := y, status := .running }) ∧
    (x ≠ 0 → s.ip.toInt + 3 ≤ Config.maxValue →
      exec (.jumpIfFalse a b) s = .next { s with ip := BitVec.ofInt 64 (s.ip.toInt + 3), status := .running }) ∧
    (x ≠ 0 → Config.maxValue < s.ip.toInt + 3 → exec (.jumpIfFalse a b) s = .next (faultedAt s .overflow))

/-- R150 (steps 5 to 8): ADJUST_RELATIVE_BASE adds the operand, read with the old base, to `rb`, and raises `Overflow`
when the new base or the next `ip` leaves the domain. -/
def Obligations.AdjustRelativeBaseAdds : Prop :=
  ∀ (s : State) (a : Operand) (x : Word), resolveRead s a = .ok x →
    (InDomain (s.rb.toInt + x.toInt) → s.ip.toInt + 2 ≤ Config.maxValue →
      exec (.adjustRelativeBase a) s = .next { s with
        rb := BitVec.ofInt 64 (s.rb.toInt + x.toInt)
        ip := BitVec.ofInt 64 (s.ip.toInt + 2), status := .running }) ∧
    (¬InDomain (s.rb.toInt + x.toInt) ∨ Config.maxValue < s.ip.toInt + 2 →
      exec (.adjustRelativeBase a) s = .next (faultedAt s .overflow))

/-- R160 (step 8): HALT sets `halted` and the status and returns `Halted`; `ip`, `rb`, memory and the queue stay. -/
def Obligations.HaltStopsInPlace : Prop :=
  ∀ s : State, exec .halt s = .next { s with
    halted := true, status := .halted, inCall := false, replies := s.replies ++ [.signal .halted] }

/-- R98, item 5: a fault of an operand is the cycle's fault, parameter 1 before parameter 2 before parameter 3, whatever
the later operands, the result and the queue are. -/
def Obligations.OperandFaultsInParameterOrder : Prop :=
  ∀ (s : State) (a b dst : Operand) (k : FaultKind),
    (resolveRead s a = .error k →
      ∀ i ∈ [Instr.add a b dst, .mul a b dst, .lessThan a b dst, .equals a b dst, .jumpIfTrue a b, .jumpIfFalse a b,
        .output a, .adjustRelativeBase a], exec i s = .next (faultedAt s k)) ∧
    (∀ x, resolveRead s a = .ok x → resolveRead s b = .error k →
      ∀ i ∈ [Instr.add a b dst, .mul a b dst, .lessThan a b dst, .equals a b dst, .jumpIfTrue a b, .jumpIfFalse a b],
        exec i s = .next (faultedAt s k)) ∧
    (∀ x y, resolveRead s a = .ok x → resolveRead s b = .ok y → resolveWrite s dst = .error k →
      ∀ i ∈ [Instr.add a b dst, .mul a b dst, .lessThan a b dst, .equals a b dst],
        exec i s = .next (faultedAt s k)) ∧
    (resolveWrite s dst = .error k → exec (.input dst) s = .next (faultedAt s k))

/-! ### Frames -/

/-- The frame of the instructions that store (ADD, MUL, LESS_THAN, EQUALS, INPUT), from canonical memory: a cycle that goes
on leaves its result to be read at the address the output operand resolves to (R15, R41); every word but the one there
reads as before, and so does every word when the operand resolves to no address; `rb` and `halted` stay; the queue stays,
but for INPUT, which removes at most its oldest value. -/
def Obligations.StoringInstructionsFrame : Prop :=
  ∀ (s t : State) (a b dst : Operand), s.mem.wf →
    ∀ i ∈ [Instr.add a b dst, .mul a b dst, .lessThan a b dst, .equals a b dst, .input dst], exec i s = .next t →
      (∀ p, resolveWrite s dst = .ok p → t.status = .running →
        (∀ x y, resolveRead s a = .ok x → resolveRead s b = .ok y →
          (i = .add a b dst → t.mem.read p = BitVec.ofInt 64 (x.toInt + y.toInt)) ∧
          (i = .mul a b dst → t.mem.read p = BitVec.ofInt 64 (x.toInt * y.toInt)) ∧
          (i = .lessThan a b dst → t.mem.read p = if x.toInt < y.toInt then 1 else 0) ∧
          (i = .equals a b dst → t.mem.read p = if x = y then 1 else 0)) ∧
        (i = .input dst → s.queue = t.mem.read p :: t.queue)) ∧
      (∀ p, resolveWrite s dst = .ok p → ∀ q, q ≠ p → t.mem.read q = s.mem.read q) ∧
      (∀ k, resolveWrite s dst = .error k → ∀ q, t.mem.read q = s.mem.read q) ∧
      t.rb = s.rb ∧ t.halted = s.halted ∧ t.calls = s.calls ∧
      (t.queue = s.queue ∨ i = .input dst ∧ ∃ v, s.queue = v :: t.queue)

/-- The frame of the instructions that store nothing (OUTPUT, the jumps, ADJUST_RELATIVE_BASE, HALT): every word reads as
before and the queue stays; `rb` stays but for ADJUST_RELATIVE_BASE, `halted` but for HALT; OUTPUT and HALT alone make the
call return a signal. -/
def Obligations.NonStoringInstructionsFrame : Prop :=
  ∀ (s t : State) (a b : Operand),
    ∀ i ∈ [Instr.output a, .jumpIfTrue a b, .jumpIfFalse a b, .adjustRelativeBase a, .halt], exec i s = .next t →
      (∀ q, t.mem.read q = s.mem.read q) ∧ t.queue = s.queue ∧ t.calls = s.calls ∧
      (i ≠ .adjustRelativeBase a → t.rb = s.rb) ∧ (i ≠ .halt → t.halted = s.halted) ∧
      (i ≠ .output a → i ≠ .halt → t.status = .running → t.inCall = s.inCall ∧ t.replies = s.replies)

/-- R207: a cycle that raises a fault commits nothing: memory, `rb`, the queue and `ip` are as at its start, the status
records the kind and `ip`, and it stays so whatever follows. -/
def Obligations.FaultCommitsNothing : Prop :=
  (∀ (s t : State) (k : FaultKind) (f : Word), s.canCycle = true → step s = .next t → t.status = .faulted k f →
    t = faultedAt s k ∧ f = s.ip) ∧
  (∀ (s t : State) (k : FaultKind) (f : Word), s.status = .faulted k f → step s = .next t → t.status = .faulted k f)

/-! ### Host calls -/

/-- R172: every resume on a halted instance returns `Fault(ResumeAfterHalt, ip)`, discards the input and changes nothing;
only the call leaves the list of calls to come and its result enters the host's record. -/
def Obligations.ResumeAfterHaltFaults : Prop :=
  ∀ (s : State) (input : Option Word) (cs : List HostCall), s.status = .halted → s.calls = .resume input :: cs →
    step s = .next { s with calls := cs, replies := s.replies ++ [.fault .resumeAfterHalt s.ip] }

/-- Every resume on a faulted instance returns the same fault again, discards the input and changes nothing. -/
def Obligations.ResumeAfterFaultRepeatsIt : Prop :=
  ∀ (s : State) (input : Option Word) (cs : List HostCall) (k : FaultKind) (f : Word), s.status = .faulted k f →
    s.calls = .resume input :: cs →
    step s = .next { s with calls := cs, replies := s.replies ++ [.fault k f] }

/-- R177: the optional input of a resume on a Running or AwaitingInput instance goes to the tail of the queue before the
first cycle of the call. -/
def Obligations.ResumeQueuesInputFirst : Prop :=
  ∀ (s : State) (input : Option Word) (cs : List HostCall), s.inCall = false →
    s.status = .running ∨ s.status = .awaitingInput → s.calls = .resume input :: cs →
    step s = .next { s with calls := cs, queue := s.queue ++ input.toList, status := .running, inCall := true }

/-- Enqueue appends its value to the queue in every status, runs no cycle and returns nothing. -/
def Obligations.EnqueueAppends : Prop :=
  ∀ (s : State) (v : Word) (cs : List HostCall), s.inCall = false → s.calls = .enqueue v :: cs →
    step s = .next { s with calls := cs, queue := s.queue ++ [v] }

/-- R181: peek returns the word at an address of the domain, the error `UndefinedAddress` for any other, and changes
nothing, in every status. -/
def Obligations.PeekReadsWithoutChange : Prop :=
  ∀ (s : State) (a : Int) (cs : List HostCall), s.inCall = false → s.calls = .peek a :: cs →
    (0 ≤ a → a ≤ Config.maxValue →
      step s = .next { s with calls := cs, replies := s.replies ++ [.word (s.mem.read a.toNat)] }) ∧
    (a < 0 ∨ Config.maxValue < a →
      step s = .next { s with calls := cs, replies := s.replies ++ [.peekError .undefinedAddress] })

/-- R182: a snapshot shows memory in every status and changes nothing, and two snapshots that give the same value at every
address are the same snapshot. -/
def Obligations.SnapshotIsMemory : Prop :=
  (∀ (s : State) (cs : List HostCall), s.inCall = false → s.calls = .snapshot :: cs →
    step s = .next { s with calls := cs, replies := s.replies ++ [.view s.mem] }) ∧
  (∀ s t : State, s.mem.wf → t.mem.wf → (∀ a, s.mem.read a = t.mem.read a) → Reply.view s.mem = .view t.mem)

/-- R176: a resume call that returns gives exactly one result and is over; between calls, with none to come, the instance
does nothing. -/
def Obligations.OneResultPerCall : Prop :=
  (∀ (fuel : Nat) (input : Option Word) (s t : State) (r : Reply), s.inCall = false →
    s.resume fuel input = some (r, t) → t.replies = s.replies ++ [r] ∧ t.inCall = false ∧
      ((∃ g, r = .signal g) ∨ ∃ k f, r = .fault k f)) ∧
  (∀ s : State, s.inCall = false → s.calls = [] → step s = .next s)

/-! ### Rules of the whole machine -/

/-- Every step answers a next state: no access, no instruction and no host call stops the model. -/
def Obligations.StepAlwaysAnswersNext : Prop := ∀ s : State, ∃ t, step s = .next t

/-- Every step keeps the invariant: canonical memory, `halted` exactly when the status is Halted, a fault record that
names the current `ip` and a kind of the cycle, a call active only in status Running. -/
def Obligations.StepKeepsInvariant : Prop :=
  ∀ s t : State, s.Inv → step s = .next t → t.Inv

/-- R22: nothing but ADJUST_RELATIVE_BASE changes the relative base. -/
def Obligations.OnlyAdjustRelativeBaseWritesBase : Prop :=
  ∀ s t : State, step s = .next t → t.rb ≠ s.rb →
    s.canCycle = true ∧ ∃ a x, fetch s = .ok (.adjustRelativeBase a) ∧ resolveRead s a = .ok x ∧
      t.rb.toInt = s.rb.toInt + x.toInt

/-- R23: the halted flag starts false, only HALT sets it, nothing clears it, and it is true exactly when the status is
Halted, in every state that meets the invariant. -/
def Obligations.HaltedFlagIsMonotonic : Prop :=
  State.reset.halted = false ∧
  (∀ s t : State, step s = .next t → s.halted = true → t.halted = true) ∧
  (∀ s t : State, step s = .next t → s.halted = false → t.halted = true →
    s.canCycle = true ∧ fetch s = .ok .halt) ∧
  (∀ s t : State, s.Inv → step s = .next t → (t.halted = true ↔ t.status = .halted))

/-- R170: the transition table of the status, with what each event returns. -/
def Obligations.StatusTransitions : Prop :=
  ∀ s t : State, step s = .next t →
    (s.canCycle = true ∧
      ((∃ i, fetch s = .ok i ∧ i ≠ .halt ∧ (∀ a, i ≠ .output a) ∧ t.status = .running ∧ t.inCall = true ∧
          t.replies = s.replies) ∨
       (∃ a v, fetch s = .ok (.output a) ∧ resolveRead s a = .ok v ∧ t.status = .running ∧ t.inCall = false ∧
          t.replies = s.replies ++ [.signal (.output v)]) ∨
       (∃ dst, fetch s = .ok (.input dst) ∧ s.queue = [] ∧ t.status = .awaitingInput ∧ t.inCall = false ∧
          t.replies = s.replies ++ [.signal .needsInput]) ∨
       (fetch s = .ok .halt ∧ t.status = .halted ∧ t.inCall = false ∧
          t.replies = s.replies ++ [.signal .halted]) ∨
       (∃ k, t.status = .faulted k s.ip ∧ t.inCall = false ∧ t.replies = s.replies ++ [.fault k s.ip]))) ∨
    (s.canCycle = false ∧ (∃ input cs, s.calls = .resume input :: cs) ∧
      ((s.status = .halted ∧ t.status = .halted ∧ t.replies = s.replies ++ [.fault .resumeAfterHalt s.ip]) ∨
       (∃ k f, s.status = .faulted k f ∧ t.status = .faulted k f ∧ t.replies = s.replies ++ [.fault k f]) ∨
       ((s.status = .running ∨ s.status = .awaitingInput) ∧ t.status = .running ∧ t.inCall = true ∧
          t.replies = s.replies))) ∨
    (s.canCycle = false ∧ (∀ input cs, s.calls ≠ .resume input :: cs) ∧ t.status = s.status)

/-- A Halted or Faulted instance never changes again: only the queue can grow, by enqueue, and nothing consumes it. -/
def Obligations.TerminalStatusIsForever : Prop :=
  ∀ s t : State, s.status = .halted ∨ (∃ k f, s.status = .faulted k f) → step s = .next t →
    t.status = s.status ∧ t.mem = s.mem ∧ t.ip = s.ip ∧ t.rb = s.rb ∧ t.halted = s.halted ∧
      ∃ vs, t.queue = s.queue ++ vs

/-- `ip` changes only in a cycle, by the sequential advance past the instruction's words or to the target operand of a
jump. -/
def Obligations.InstructionPointerMoves : Prop :=
  ∀ s t : State, step s = .next t → t.ip ≠ s.ip →
    s.canCycle = true ∧ ∃ i, fetch s = .ok i ∧
      (t.ip.toInt = s.ip.toInt + (encode i).length ∨
        ∃ a b, (i = .jumpIfTrue a b ∨ i = .jumpIfFalse a b) ∧ resolveRead s b = .ok t.ip)

/-- R99: a cycle is a function of memory, `ip`, `rb` and the queue: two instances that agree on these end their cycles
alike, whatever else differs. -/
def Obligations.CycleDependsOnInstanceOnly : Prop :=
  ∀ s u t v : State, s.canCycle = true → u.canCycle = true →
    s.mem = u.mem → s.ip = u.ip → s.rb = u.rb → s.queue = u.queue →
    step s = .next t → step u = .next v →
    t.mem = v.mem ∧ t.ip = v.ip ∧ t.rb = v.rb ∧ t.queue = v.queue ∧ t.status = v.status ∧ t.inCall = v.inCall ∧
      (t.halted = s.halted ∧ v.halted = u.halted ∨ t.halted = true ∧ v.halted = true) ∧
      ∃ rs, t.replies = s.replies ++ rs ∧ v.replies = u.replies ++ rs

/-- Values queued behind do not disturb a cycle that does not starve: it does the same and leaves them behind. -/
def Obligations.LaterInputsDoNotDisturb : Prop :=
  ∀ (s t : State) (vs : List Word), s.canCycle = true → step s = .next t → t.status ≠ .awaitingInput →
    step { s with queue := s.queue ++ vs } = .next { t with queue := t.queue ++ vs }

/-- R122 and R174: an INPUT cycle that finds the queue empty leaves no trace but the status AwaitingInput, and the call
returns `NeedsInput`. A later resume, with whatever queue `q` enqueue calls have left and with or without an input, runs
the same INPUT again: it consumes the oldest value if there is one now, and starves again, with no state changed but the
result returned, if there is none. -/
def Obligations.StarvedInputIsRunAgain : Prop :=
  ∀ (s : State) (dst : Operand) (p : Nat), s.canCycle = true → fetch s = .ok (.input dst) →
    resolveWrite s dst = .ok p → s.queue = [] → s.ip.toInt + 2 ≤ Config.maxValue →
    ∃ t : State, t = { s with
        status := .awaitingInput, inCall := false, replies := s.replies ++ [.signal .needsInput] } ∧
      step s = .next t ∧
      ∀ (q : List Word) (input : Option Word),
        (q ++ input.toList = [] →
          step ({ t with queue := q }.beginResume input) =
            .next { t with replies := t.replies ++ [.signal .needsInput] }) ∧
        (∀ (v : Word) (r : List Word), q ++ input.toList = v :: r →
          step ({ t with queue := q }.beginResume input) = .next { t with
            mem := t.mem.write p v, queue := r, ip := BitVec.ofInt 64 (s.ip.toInt + 2)
            status := .running, inCall := true })

/-- A word that ADD stores where the next instruction is fetched, whatever word it is, is the instruction word of the very
next step (R53): it reads back at the new `ip`; if it is the instruction word of `i`, whose raw parameters stand behind it,
the step is `exec i`; if it is valid and its parameters run beyond `MAX`, the step overflows; if it is invalid, the step
raises the Decoder's verdict on it. -/
def Obligations.StoredWordIsFetchedNext : Prop :=
  ∀ (s : State) (a b dst : Operand) (x y : Word) (p : Nat), s.inCall = true → s.mem.wf →
    resolveRead s a = .ok x → resolveRead s b = .ok y → resolveWrite s dst = .ok p →
    InDomain (x.toInt + y.toInt) → (p : Int) = s.ip.toInt + 4 →
    ∃ (w : Word) (t : State), w.toInt = x.toInt + y.toInt ∧ exec (.add a b dst) s = .next t ∧
      t.ip.toInt = p ∧ t.mem.read p = w ∧
      (∀ i : Instr, i.wf = true → (encode i).head? = some w →
        (∀ (k : Nat) (h : k < (encode i).length), 0 < k →
          p + k ≤ Config.maxAddress ∧ s.mem.read (p + k) = (encode i)[k]) → step t = exec i t) ∧
      (∀ d, decodeWord w = .ok d → Config.maxAddress < p + d.op.nin + d.op.nout →
        step t = .next (faultedAt t .overflow)) ∧
      (∀ k, decodeWord w = .error k → step t = .next (faultedAt t k))

/-! ### Runs, drivers and compositions -/

/-- A taken jump to itself, of either kind, never lets the resume call return, however many cycles are run (R183). -/
def Obligations.SelfJumpNeverReturns : Prop :=
  ∀ (s : State) (i : Instr) (a b : Operand) (x : Word), s.canCycle = true → fetch s = .ok i →
    (i = .jumpIfTrue a b ∧ x ≠ 0) ∨ (i = .jumpIfFalse a b ∧ x = 0) →
    resolveRead s a = .ok x → resolveRead s b = .ok s.ip → ∀ fuel, runCall fuel s = none

/-- Stepwise drive equivalence: a program driven stepwise, one input at each `NeedsInput`, ends as it does in batch with
the same inputs pre-loaded in the same order, with the same outputs in the same order; an input that does not come is
`InputStarvation` in batch (R188). Running out of fuel is no end, and the driver that gives no further input abandons the
instance: these are the model's form of the drivers (assumption log 12 and 15). -/
def Obligations.StepwiseAgreesWithBatch : Prop :=
  ∀ (program : List Int) (inputs : List Word) (e : DriveEnd),
    (∃ fuel, runBatch fuel program inputs = some e) ↔
    ∃ fuel e', runStepwise fuel program (fun given _ => inputs[given]?) = some e' ∧ asBatchEnd e' = e

/-- A turn of one instance changes no other instance. -/
def Obligations.TurnLeavesOtherInstances : Prop :=
  ∀ (fuel : Nat) (c c' : Composition) (i : Nat), c.turn fuel i = some c' →
    c'.route = c.route ∧ c'.instances.length = c.instances.length ∧
      ∀ j, j ≠ i → c'.instances[j]? = c.instances[j]?

/-- A turn's output goes to the end of the line of the instance it is routed to, and the oldest message waiting for the
resumed instance was passed to it. -/
def Obligations.TurnRoutesOutput : Prop :=
  ∀ (fuel : Nat) (c : Composition) (i j : Nat) (s t : State) (v : Word) (p q : List Word),
    c.failed = none → c.instances[i]? = some s → s.status ≠ .halted → c.pending[i]? = some p →
    s.resume fuel p.head? = some (.signal (.output v), t) →
    c.route[i]? = some j → j ≠ i → c.pending[j]? = some q →
    ∃ c', c.turn fuel i = some c' ∧ c'.instances[i]? = some t ∧ c'.pending[i]? = some p.tail ∧
      c'.pending[j]? = some (q ++ [v]) ∧ c'.outputs = c.outputs ∧ c'.failed = none

/-- An instance's fault is fatal to the whole composition: no later turn changes anything. -/
def Obligations.FaultEndsComposition : Prop :=
  ∀ (fuel : Nat) (c c' : Composition) (i : Nat) (s t : State) (k : FaultKind) (f : Word),
    c.failed = none → c.instances[i]? = some s → s.status ≠ .halted →
    s.resume fuel (c.pending[i]?.getD []).head? = some (.fault k f, t) → c.turn fuel i = some c' →
    c'.failed = some (i, k, f) ∧ ∀ schedule, c'.run fuel schedule = some c'

/-! ### Notation -/

/-- R81: each pseudo-instruction assembles to the one real instruction it stands for. -/
def Obligations.PseudoInstructionsExpand : Prop :=
  ∀ (labels : List (String × Int)) (t d src : AsmOperand) (e v p : Int),
    (AsmStmt.jmp t).assemble labels = (AsmStmt.op .jumpIfTrue [.immediate (.num 1), t]).assemble labels ∧
    (AsmStmt.jmp (.immediate (.num e))).assemble labels = some [1105, 1, e] ∧
    (AsmStmt.jmp (.position (.num e))).assemble labels = some [105, 1, e] ∧
    (AsmStmt.mov d src).assemble labels = (AsmStmt.op .add [src, .immediate (.num 0), d]).assemble labels ∧
    (AsmStmt.mov (.position (.num p)) (.immediate (.num v))).assemble labels = some [1101, v, 0, p] ∧
    AsmStmt.nop.assemble labels = some [1106, 1, 0]

/-- R82: the disassembler finds a well-formed instruction where its words stand, all within the address domain, and prints
the word itself where it is invalid. -/
def Obligations.DisassemblyFindsInstruction : Prop :=
  (∀ (m : Memory) (a : Nat) (i : Instr), i.wf = true → a + (encode i).length ≤ Config.maxAddress + 1 →
    (∀ (k : Nat) (h : k < (encode i).length), m.read (a + k) = (encode i)[k]) → disassemble m a = .instr i) ∧
  (∀ (m : Memory) (a : Nat) (k : FaultKind), a ≤ Config.maxAddress → decodeWord (m.read a) = .error k →
    (disassemble m a).text = ".word " ++ toString (m.read a).toInt)

/-- The numeric codes of the fault kinds (R200). -/
def Obligations.FaultCodesAsListed : Prop :=
  [FaultKind.malformedOpcode, .invalidMode, .undefinedAddress, .overflow, .inputStarvation, .resumeAfterHalt].map
    faultCode = [1, 2, 3, 4, 5, 6]
end

