-- ==== Sys2Proof/Laws/State.lean ====
section
/-! SUPPORT. What each named update of the state leaves in each field, one lemma a field (all by `rfl`). -/

namespace Sys2Proof.Machine

variable (s : State)

@[simp] theorem State.push_mem (v : Word) : (s.push v).mem = s.mem := rfl
@[simp] theorem State.push_ip (v : Word) : (s.push v).ip = s.ip := rfl
@[simp] theorem State.push_rb (v : Word) : (s.push v).rb = s.rb := rfl
@[simp] theorem State.push_halted (v : Word) : (s.push v).halted = s.halted := rfl
@[simp] theorem State.push_status (v : Word) : (s.push v).status = s.status := rfl
@[simp] theorem State.push_queue (v : Word) : (s.push v).queue = s.queue ++ [v] := rfl
@[simp] theorem State.push_inCall (v : Word) : (s.push v).inCall = s.inCall := rfl
@[simp] theorem State.push_calls (v : Word) : (s.push v).calls = s.calls := rfl
@[simp] theorem State.push_replies (v : Word) : (s.push v).replies = s.replies := rfl

@[simp] theorem State.store_mem (a : Nat) (v : Word) : (s.store a v).mem = s.mem.write a v := rfl
@[simp] theorem State.store_ip (a : Nat) (v : Word) : (s.store a v).ip = s.ip := rfl
@[simp] theorem State.store_rb (a : Nat) (v : Word) : (s.store a v).rb = s.rb := rfl
@[simp] theorem State.store_halted (a : Nat) (v : Word) : (s.store a v).halted = s.halted := rfl
@[simp] theorem State.store_status (a : Nat) (v : Word) : (s.store a v).status = s.status := rfl
@[simp] theorem State.store_queue (a : Nat) (v : Word) : (s.store a v).queue = s.queue := rfl
@[simp] theorem State.store_inCall (a : Nat) (v : Word) : (s.store a v).inCall = s.inCall := rfl
@[simp] theorem State.store_calls (a : Nat) (v : Word) : (s.store a v).calls = s.calls := rfl
@[simp] theorem State.store_replies (a : Nat) (v : Word) : (s.store a v).replies = s.replies := rfl

@[simp] theorem State.goto_mem (t : Word) : (s.goto t).mem = s.mem := rfl
@[simp] theorem State.goto_ip (t : Word) : (s.goto t).ip = t := rfl
@[simp] theorem State.goto_rb (t : Word) : (s.goto t).rb = s.rb := rfl
@[simp] theorem State.goto_halted (t : Word) : (s.goto t).halted = s.halted := rfl
@[simp] theorem State.goto_status (t : Word) : (s.goto t).status = s.status := rfl
@[simp] theorem State.goto_queue (t : Word) : (s.goto t).queue = s.queue := rfl
@[simp] theorem State.goto_inCall (t : Word) : (s.goto t).inCall = s.inCall := rfl
@[simp] theorem State.goto_calls (t : Word) : (s.goto t).calls = s.calls := rfl
@[simp] theorem State.goto_replies (t : Word) : (s.goto t).replies = s.replies := rfl

@[simp] theorem State.setBase_mem (v : Word) : (s.setBase v).mem = s.mem := rfl
@[simp] theorem State.setBase_ip (v : Word) : (s.setBase v).ip = s.ip := rfl
@[simp] theorem State.setBase_rb (v : Word) : (s.setBase v).rb = v := rfl
@[simp] theorem State.setBase_halted (v : Word) : (s.setBase v).halted = s.halted := rfl
@[simp] theorem State.setBase_status (v : Word) : (s.setBase v).status = s.status := rfl
@[simp] theorem State.setBase_queue (v : Word) : (s.setBase v).queue = s.queue := rfl
@[simp] theorem State.setBase_inCall (v : Word) : (s.setBase v).inCall = s.inCall := rfl
@[simp] theorem State.setBase_calls (v : Word) : (s.setBase v).calls = s.calls := rfl
@[simp] theorem State.setBase_replies (v : Word) : (s.setBase v).replies = s.replies := rfl

@[simp] theorem State.setStatus_mem (st : Status) : (s.setStatus st).mem = s.mem := rfl
@[simp] theorem State.setStatus_ip (st : Status) : (s.setStatus st).ip = s.ip := rfl
@[simp] theorem State.setStatus_rb (st : Status) : (s.setStatus st).rb = s.rb := rfl
@[simp] theorem State.setStatus_halted (st : Status) : (s.setStatus st).halted = s.halted := rfl
@[simp] theorem State.setStatus_status (st : Status) : (s.setStatus st).status = st := rfl
@[simp] theorem State.setStatus_queue (st : Status) : (s.setStatus st).queue = s.queue := rfl
@[simp] theorem State.setStatus_inCall (st : Status) : (s.setStatus st).inCall = s.inCall := rfl
@[simp] theorem State.setStatus_calls (st : Status) : (s.setStatus st).calls = s.calls := rfl
@[simp] theorem State.setStatus_replies (st : Status) : (s.setStatus st).replies = s.replies := rfl

@[simp] theorem State.answer_mem (r : Reply) : (s.answer r).mem = s.mem := rfl
@[simp] theorem State.answer_ip (r : Reply) : (s.answer r).ip = s.ip := rfl
@[simp] theorem State.answer_rb (r : Reply) : (s.answer r).rb = s.rb := rfl
@[simp] theorem State.answer_halted (r : Reply) : (s.answer r).halted = s.halted := rfl
@[simp] theorem State.answer_status (r : Reply) : (s.answer r).status = s.status := rfl
@[simp] theorem State.answer_queue (r : Reply) : (s.answer r).queue = s.queue := rfl
@[simp] theorem State.answer_inCall (r : Reply) : (s.answer r).inCall = s.inCall := rfl
@[simp] theorem State.answer_calls (r : Reply) : (s.answer r).calls = s.calls := rfl
@[simp] theorem State.answer_replies (r : Reply) : (s.answer r).replies = s.replies ++ [r] := rfl

@[simp] theorem State.finish_mem (r : Reply) : (s.finish r).mem = s.mem := rfl
@[simp] theorem State.finish_ip (r : Reply) : (s.finish r).ip = s.ip := rfl
@[simp] theorem State.finish_rb (r : Reply) : (s.finish r).rb = s.rb := rfl
@[simp] theorem State.finish_halted (r : Reply) : (s.finish r).halted = s.halted := rfl
@[simp] theorem State.finish_status (r : Reply) : (s.finish r).status = s.status := rfl
@[simp] theorem State.finish_queue (r : Reply) : (s.finish r).queue = s.queue := rfl
@[simp] theorem State.finish_inCall (r : Reply) : (s.finish r).inCall = false := rfl
@[simp] theorem State.finish_calls (r : Reply) : (s.finish r).calls = s.calls := rfl
@[simp] theorem State.finish_replies (r : Reply) : (s.finish r).replies = s.replies ++ [r] := rfl

@[simp] theorem State.raise_mem (k : FaultKind) : (s.raise k).mem = s.mem := rfl
@[simp] theorem State.raise_ip (k : FaultKind) : (s.raise k).ip = s.ip := rfl
@[simp] theorem State.raise_rb (k : FaultKind) : (s.raise k).rb = s.rb := rfl
@[simp] theorem State.raise_halted (k : FaultKind) : (s.raise k).halted = s.halted := rfl
@[simp] theorem State.raise_status (k : FaultKind) : (s.raise k).status = .faulted k s.ip := rfl
@[simp] theorem State.raise_queue (k : FaultKind) : (s.raise k).queue = s.queue := rfl
@[simp] theorem State.raise_inCall (k : FaultKind) : (s.raise k).inCall = false := rfl
@[simp] theorem State.raise_calls (k : FaultKind) : (s.raise k).calls = s.calls := rfl
@[simp] theorem State.raise_replies (k : FaultKind) : (s.raise k).replies = s.replies ++ [.fault k s.ip] := rfl

@[simp] theorem State.starve_mem : (s.starve).mem = s.mem := rfl
@[simp] theorem State.starve_ip : (s.starve).ip = s.ip := rfl
@[simp] theorem State.starve_rb : (s.starve).rb = s.rb := rfl
@[simp] theorem State.starve_halted : (s.starve).halted = s.halted := rfl
@[simp] theorem State.starve_status : (s.starve).status = .awaitingInput := rfl
@[simp] theorem State.starve_queue : (s.starve).queue = s.queue := rfl
@[simp] theorem State.starve_inCall : (s.starve).inCall = false := rfl
@[simp] theorem State.starve_calls : (s.starve).calls = s.calls := rfl
@[simp] theorem State.starve_replies : (s.starve).replies = s.replies ++ [.signal .needsInput] := rfl

end Sys2Proof.Machine
end

