-- ==== Sys2Proof/Laws/Memory.lean ====
section
/-! SUPPORT. The laws of memory: reads after writes, the canonical form, and that canonical memories with the same reads
are equal (R15, R41, R182). -/

namespace Sys2Proof.Machine

@[simp] theorem Memory.read_nil (a : Nat) : Memory.read [] a = Config.unwritten := rfl

theorem Memory.read_cons (k : Nat) (x : Word) (m : Memory) (a : Nat) :
    Memory.read ((k, x) :: m) a = if a = k then x else m.read a := rfl

theorem Memory.wf_tail {c : Nat × Word} {m : Memory} (h : Memory.wf (c :: m)) : Memory.wf m :=
  ⟨h.1.tail, fun d hd => h.2 d (List.mem_cons_of_mem _ hd)⟩

/-- An address below every listed one, or listed nowhere, reads as unwritten. -/
theorem Memory.read_eq_unwritten {m : Memory} {a : Nat} (h : ∀ c ∈ m, c.1 ≠ a) : m.read a = Config.unwritten := by
  induction m with
  | nil => rfl
  | cons c m ih =>
    rw [Memory.read_cons, if_neg fun e => h c (by simp) e.symm]
    exact ih fun d hd => h d (List.mem_cons_of_mem _ hd)

theorem Memory.read_below {m : Memory} {a : Nat} (h : ∀ c ∈ m, a < c.1) : m.read a = Config.unwritten :=
  Memory.read_eq_unwritten fun c hc => Nat.ne_of_gt (h c hc)

theorem Memory.read_consCell {m : Memory} {a b : Nat} {v : Word} (h : ∀ c ∈ m, a < c.1) :
    (Memory.consCell a v m).read b = if b = a then v else m.read b := by
  unfold Memory.consCell
  split
  · next hv =>
    split
    · next hb => rw [hb, Memory.read_below h, hv]
    · rfl
  · rfl

theorem Memory.below_of_wf {k : Nat} {x : Word} {m : Memory} (h : Memory.wf ((k, x) :: m)) :
    ∀ c ∈ m, k < c.1 := fun _ hc => List.rel_of_pairwise_cons h.1 hc

/-- Reading after a write: the written word at its address, everything else as before (R15). -/
theorem Memory.read_write {m : Memory} (h : m.wf) (a b : Nat) (v : Word) :
    (m.write a v).read b = if b = a then v else m.read b := by
  induction m with
  | nil => exact Memory.read_consCell (by simp)
  | cons c m ih =>
    obtain ⟨k, x⟩ := c
    have hk := Memory.below_of_wf h
    unfold Memory.write
    split
    · next hlt =>
      refine Memory.read_consCell fun d hd => ?_
      rcases List.mem_cons.1 hd with rfl | hd
      · exact hlt
      · exact hlt.trans (hk d hd)
    · split
      · next _ hak =>
        subst hak
        rw [Memory.read_consCell hk, Memory.read_cons]
        split <;> rfl
      · next hn hne =>
        rw [Memory.read_cons, Memory.read_cons, ih (Memory.wf_tail h)]
        split
        · next hb => rw [if_neg (by omega)]
        · rfl

theorem Memory.read_write_same {m : Memory} (h : m.wf) (a : Nat) (v : Word) : (m.write a v).read a = v := by
  rw [Memory.read_write h, if_pos rfl]

theorem Memory.read_write_other {m : Memory} (h : m.wf) {a b : Nat} (hb : b ≠ a) (v : Word) :
    (m.write a v).read b = m.read b := by
  rw [Memory.read_write h, if_neg hb]

theorem Memory.wf_consCell {m : Memory} {a : Nat} {v : Word} (hm : m.wf) (ha : a ≤ Config.maxAddress)
    (h : ∀ c ∈ m, a < c.1) : (Memory.consCell a v m).wf := by
  unfold Memory.consCell
  split
  · exact hm
  · next hv =>
    refine ⟨List.pairwise_cons.2 ⟨h, hm.1⟩, fun c hc => ?_⟩
    rcases List.mem_cons.1 hc with rfl | hc
    · exact ⟨hv, ha⟩
    · exact hm.2 c hc

/-- Every address listed after a write is the written one or was listed before. -/
theorem Memory.mem_write {m : Memory} {a : Nat} {v : Word} {c : Nat × Word} (h : c ∈ m.write a v) :
    c.1 = a ∨ c ∈ m := by
  have cell : ∀ {n : Memory}, c ∈ Memory.consCell a v n → c.1 = a ∨ c ∈ n := by
    intro n hn
    unfold Memory.consCell at hn
    split at hn
    · exact .inr hn
    · rcases List.mem_cons.1 hn with rfl | hn
      · exact .inl rfl
      · exact .inr hn
  induction m with
  | nil => exact cell h
  | cons d m ih =>
    unfold Memory.write at h
    split at h
    · exact cell h
    · split at h
      · exact (cell h).imp_right (List.mem_cons_of_mem _)
      · rcases List.mem_cons.1 h with rfl | h
        · exact .inr (by simp)
        · exact (ih h).imp_right (List.mem_cons_of_mem _)

/-- A write keeps the canonical form. -/
theorem Memory.wf_write {m : Memory} (h : m.wf) {a : Nat} (ha : a ≤ Config.maxAddress) (v : Word) :
    (m.write a v).wf := by
  induction m with
  | nil => exact Memory.wf_consCell h ha (by simp)
  | cons c m ih =>
    obtain ⟨k, x⟩ := c
    have hk := Memory.below_of_wf h
    unfold Memory.write
    split
    · next hlt =>
      refine Memory.wf_consCell h ha fun d hd => ?_
      rcases List.mem_cons.1 hd with rfl | hd
      · exact hlt
      · exact hlt.trans (hk d hd)
    · split
      · next _ hak => subst hak; exact Memory.wf_consCell (Memory.wf_tail h) ha hk
      · next hn hne =>
        have ht := ih (Memory.wf_tail h)
        refine ⟨List.pairwise_cons.2 ⟨fun d hd => ?_, ht.1⟩, fun d hd => ?_⟩
        · rcases Memory.mem_write hd with hd | hd
          · simp only [hd]; omega
          · exact hk d hd
        · rcases List.mem_cons.1 hd with rfl | hd
          · exact h.2 _ (by simp)
          · exact ht.2 d hd

/-- Two canonical memories that read the same at every address are the same memory. -/
theorem Memory.ext_of_wf {m n : Memory} (hm : m.wf) (hn : n.wf) (h : ∀ a, m.read a = n.read a) : m = n := by
  induction m generalizing n with
  | nil =>
    cases n with
    | nil => rfl
    | cons d n =>
      obtain ⟨j, y⟩ := d
      have := h j
      rw [Memory.read_cons, if_pos rfl, Memory.read_nil] at this
      exact absurd this.symm (hn.2 (j, y) (by simp)).1
  | cons c m ih =>
    obtain ⟨k, x⟩ := c
    cases n with
    | nil =>
      have := h k
      rw [Memory.read_cons, if_pos rfl, Memory.read_nil] at this
      exact absurd this (hm.2 (k, x) (by simp)).1
    | cons d n =>
      obtain ⟨j, y⟩ := d
      have hx := (hm.2 (k, x) (by simp)).1
      have hy := (hn.2 (j, y) (by simp)).1
      have hkj : k = j := by
        rcases Nat.lt_trichotomy k j with hlt | heq | hgt
        · have hk := h k
          rw [Memory.read_cons, if_pos rfl, Memory.read_cons, if_neg (Nat.ne_of_lt hlt),
            Memory.read_below fun c hc => hlt.trans (Memory.below_of_wf hn c hc)] at hk
          exact absurd hk hx
        · exact heq
        · have hj := h j
          rw [Memory.read_cons, if_neg (Nat.ne_of_lt hgt), Memory.read_cons, if_pos rfl,
            Memory.read_below fun c hc => hgt.trans (Memory.below_of_wf hm c hc)] at hj
          exact absurd hj.symm hy
      subst hkj
      have hxy : x = y := by
        have hk := h k
        rwa [Memory.read_cons, if_pos rfl, Memory.read_cons, if_pos rfl] at hk
      subst hxy
      congr 1
      refine ih (Memory.wf_tail hm) (Memory.wf_tail hn) fun a => ?_
      rcases eq_or_ne a k with rfl | hak
      · rw [Memory.read_below (Memory.below_of_wf hm), Memory.read_below (Memory.below_of_wf hn)]
      · have ha := h a
        rwa [Memory.read_cons, if_neg hak, Memory.read_cons, if_neg hak] at ha

theorem Memory.mem_load {a : Nat} {vs : List Word} {c : Nat × Word} (h : c ∈ Memory.load a vs) :
    a ≤ c.1 ∧ c.1 < a + vs.length := by
  induction vs generalizing a with
  | nil => simp [Memory.load] at h
  | cons v vs ih =>
    unfold Memory.load Memory.consCell at h
    rw [List.length_cons]
    split at h
    · have := ih h; omega
    · rcases List.mem_cons.1 h with rfl | h
      · simp
      · have := ih h; omega

/-- A loaded memory is in canonical form. -/
theorem Memory.wf_load {a : Nat} {vs : List Word} (h : a + vs.length ≤ Config.maxAddress + 1) :
    (Memory.load a vs).wf := by
  induction vs generalizing a with
  | nil => exact ⟨List.Pairwise.nil, by simp [Memory.load]⟩
  | cons v vs ih =>
    rw [List.length_cons] at h
    exact Memory.wf_consCell (ih (by omega)) (by omega) fun c hc => (Memory.mem_load hc).1

/-- What a loaded memory holds (R48). -/
theorem Memory.read_load (a : Nat) (vs : List Word) (i : Nat) :
    (Memory.load a vs).read (a + i) = vs.getD i Config.unwritten := by
  induction vs generalizing a i with
  | nil => simp [Memory.load]
  | cons v vs ih =>
    rw [Memory.load, Memory.read_consCell fun c hc => (Memory.mem_load hc).1]
    cases i with
    | zero => simp
    | succ i =>
      rw [if_neg (by omega), show a + (i + 1) = a + 1 + i by omega, ih]
      simp

/-- Placing words keeps the canonical form. -/
theorem Memory.wf_placeWords {m : Memory} (h : m.wf) (a : Nat) (vs : List Word) : (placeWords m a vs).wf := by
  induction vs generalizing m a with
  | nil => exact h
  | cons v vs ih =>
    unfold placeWords
    split
    · next ha => exact ih (Memory.wf_write h ha v) (a + 1)
    · exact ih h (a + 1)

end Sys2Proof.Machine
end

