-- ==== Sys2Proof/Laws/Ops.lean ====
section
/-! SUPPORT. What the shared operations answer: the narrowing `chk`, the address checks, the resolver, and the end of a
cycle. -/

namespace Sys2Proof.Machine

@[simp] theorem ok_bind {α β : Type} (x : α) (f : α → Except FaultKind β) : (Except.ok x >>= f) = f x := rfl

@[simp] theorem error_bind {α β : Type} (k : FaultKind) (f : α → Except FaultKind β) :
    ((Except.error k : Except FaultKind α) >>= f) = .error k := rfl

@[simp] theorem pure_eq_ok {α : Type} (x : α) : (pure x : Except FaultKind α) = .ok x := rfl

/-- A sequence answers exactly when each part does. -/
theorem bind_eq_ok {α β : Type} {x : Except FaultKind α} {f : α → Except FaultKind β} {r : β} :
    (x >>= f) = .ok r ↔ ∃ a, x = .ok a ∧ f a = .ok r := by
  cases x <;> simp

/-- A sequence raises the first fault of its parts (R90). -/
theorem bind_eq_error {α β : Type} {x : Except FaultKind α} {f : α → Except FaultKind β} {k : FaultKind} :
    (x >>= f) = .error k ↔ x = .error k ∨ ∃ a, x = .ok a ∧ f a = .error k := by
  cases x <;> simp

theorem inDomain_iff (v : Int) : InDomain v ↔ -9223372036854775808 ≤ v ∧ v ≤ 9223372036854775807 := Iff.rfl

/-- Every word's value lies in the domain (R20). -/
theorem inDomain_toInt (w : Word) : InDomain w.toInt := by
  have h1 := BitVec.toInt_lt (x := w)
  have h2 := BitVec.le_toInt (x := w)
  rw [inDomain_iff]
  norm_num at h1 h2
  omega

theorem toInt_ofInt {v : Int} (h : InDomain v) : (BitVec.ofInt 64 v).toInt = v := by
  rw [inDomain_iff] at h
  exact BitVec.toInt_ofInt_eq_self (by decide) (by norm_num; omega) (by norm_num; omega)

@[simp] theorem ofInt_toInt (w : Word) : BitVec.ofInt 64 w.toInt = w := BitVec.ofInt_toInt

theorem chk_of_inDomain {v : Int} (h : InDomain v) : chk v = .ok (BitVec.ofInt 64 v) := if_pos h

theorem chk_of_not_inDomain {v : Int} (h : ¬InDomain v) : chk v = .error .overflow := if_neg h

/-- `chk` answers the word whose value is the exact result (R13). -/
theorem chk_eq_ok {v : Int} {w : Word} : chk v = .ok w ↔ w.toInt = v := by
  constructor
  · intro h
    unfold chk at h
    split at h
    · next hv => cases h; exact toInt_ofInt hv
    · cases h
  · rintro rfl
    rw [chk_of_inDomain (inDomain_toInt w), ofInt_toInt]

theorem chk_eq_error {v : Int} {k : FaultKind} : chk v = .error k ↔ k = .overflow ∧ ¬InDomain v := by
  unfold chk
  split
  · next h => simp [h]
  · next h => simp [h, eq_comm]

theorem checkAddress_eq_ok {w : Word} {a : Nat} : checkAddress w = .ok a ↔ (a : Int) = w.toInt := by
  unfold checkAddress
  split
  · next h => simp only [reduceCtorEq, false_iff]; omega
  · next h => simp only [Except.ok.injEq]; omega

theorem checkAddress_eq_error {w : Word} {k : FaultKind} :
    checkAddress w = .error k ↔ k = .undefinedAddress ∧ w.toInt < 0 := by
  unfold checkAddress
  split
  · next h => simp [h, eq_comm]
  · next h => simp [h]

/-- A checked address lies in the address domain (R94). -/
theorem checkAddress_le {w : Word} {a : Nat} (h : checkAddress w = .ok a) : a ≤ Config.maxAddress := by
  have h1 := checkAddress_eq_ok.1 h
  have h2 := ((inDomain_iff _).1 (inDomain_toInt w)).2
  show a ≤ 9223372036854775807
  omega

theorem effectiveAddress_le {rb : Word} {o : Operand} {a : Nat} (h : effectiveAddress rb o = .ok a) :
    a ≤ Config.maxAddress := by
  unfold effectiveAddress at h
  split at h
  · exact checkAddress_le h
  · obtain ⟨w, -, h⟩ := bind_eq_ok.1 h
    exact checkAddress_le h
  · cases h

/-- The address an output operand resolves to lies in the address domain (R95). -/
theorem resolveWrite_le {s : State} {o : Operand} {a : Nat} (h : resolveWrite s o = .ok a) :
    a ≤ Config.maxAddress := effectiveAddress_le h

/-- The faults address checks raise. -/
theorem effectiveAddress_error {rb : Word} {o : Operand} {k : FaultKind} (h : effectiveAddress rb o = .error k) :
    k = .undefinedAddress ∨ k = .overflow ∨ k = .invalidMode := by
  unfold effectiveAddress at h
  split at h
  · exact .inl (checkAddress_eq_error.1 h).1
  · rcases bind_eq_error.1 h with h | ⟨w, -, h⟩
    · exact .inr (.inl (chk_eq_error.1 h).1)
    · exact .inl (checkAddress_eq_error.1 h).1
  · cases h; exact .inr (.inr rfl)

theorem resolveRead_error {s : State} {o : Operand} {k : FaultKind} (h : resolveRead s o = .error k) :
    k = .undefinedAddress ∨ k = .overflow ∨ k = .invalidMode := by
  unfold resolveRead at h
  split at h
  · cases h
  all_goals
    rcases bind_eq_error.1 h with h | ⟨_, -, h⟩
    · exact effectiveAddress_error h
    · cases h

/-- A resolved read depends on memory and the relative base alone (R93). -/
theorem resolveRead_congr {s t : State} (hm : s.mem = t.mem) (hr : s.rb = t.rb) (o : Operand) :
    resolveRead s o = resolveRead t o := by
  unfold resolveRead; rw [hm, hr]

theorem resolveWrite_congr {s t : State} (hr : s.rb = t.rb) (o : Operand) : resolveWrite s o = resolveWrite t o := by
  unfold resolveWrite; rw [hr]

/-- The sequential next instruction pointer (R97). -/
theorem sequential_eq_ok {s : State} {n : Int} {w : Word} : sequential s n = .ok w ↔ w.toInt = s.ip.toInt + n :=
  chk_eq_ok

theorem sequential_eq_error {s : State} {n : Int} {k : FaultKind} :
    sequential s n = .error k ↔ k = .overflow ∧ ¬InDomain (s.ip.toInt + n) := chk_eq_error

/-- A cycle always ends in a next state (R90, R170). -/
theorem conclude_next (s : State) (e : Except FaultKind CycleEnd) : ∃ t, conclude s e = .next t := by
  rcases e with k | (t | ⟨v, t⟩ | t | _) <;> exact ⟨_, rfl⟩

@[simp] theorem conclude_error (s : State) (k : FaultKind) : conclude s (.error k) = .next (s.raise k) := rfl

@[simp] theorem conclude_proceed (s t : State) : conclude s (.ok (.proceed t)) = .next (t.setStatus .running) := rfl

@[simp] theorem conclude_emit (s t : State) (v : Word) :
    conclude s (.ok (.emit v t)) = .next ((t.setStatus .running).finish (.signal (.output v))) := rfl

@[simp] theorem conclude_halt (s t : State) : conclude s (.ok (.halt t)) = .next (t.finish (.signal .halted)) := rfl

@[simp] theorem conclude_starve (s : State) : conclude s (.ok .starve) = .next s.starve := rfl

end Sys2Proof.Machine
end

