-- ==== Sys2Proof/Laws/Decode.lean ====
section
/-! SUPPORT. What the Decoder's parts answer, and the value of an encoded instruction word (R61 to R70). -/

namespace Sys2Proof

theorem Opcode.ofCode_eq_some {n : Nat} {op : Opcode} : Opcode.ofCode n = some op ↔ n = op.code := by
  constructor
  · intro h
    unfold Opcode.ofCode at h
    split at h <;> simp only [Option.some.injEq, reduceCtorEq] at h <;> subst h <;> rfl
  · rintro rfl; cases op <;> rfl

/-- Which numbers are opcodes (R67, R71). -/
theorem Opcode.ofCode_eq_none {n : Nat} : Opcode.ofCode n = none ↔ n ∉ [1, 2, 3, 4, 5, 6, 7, 8, 9, 99] := by
  constructor
  · intro h hn
    have hmem : ∀ m ∈ [1, 2, 3, 4, 5, 6, 7, 8, 9, 99], Opcode.ofCode m ≠ none := by decide
    exact hmem n hn h
  · intro h
    rcases hc : Opcode.ofCode n with _ | op
    · rfl
    · rw [Opcode.ofCode_eq_some.1 hc] at h
      cases op <;> exact absurd h (by decide)

/-- A digit selects the mode whose digit it is (R65). -/
theorem modeOf_digit {op : Opcode} {k d : Nat} {m : Mode} (h : modeOf op k d = some m) : m.digit = d := by
  unfold modeOf at h
  split at h
  · split at h
    · next hd => cases h; exact hd.symm
    · cases h
  · split at h
    · cases h; rfl
    · split at h
      · cases h
      · cases h; rfl
    · cases h; rfl
    · cases h

/-- Exactly the digits R68 does not allow select no mode. -/
theorem modeOf_eq_none {op : Opcode} {k d : Nat} :
    modeOf op k d = none ↔
      (op.params < k ∧ d ≠ 0) ∨ (k ≤ op.params ∧ (2 < d ∨ d = 1 ∧ op.nout = 1 ∧ k = op.params)) := by
  unfold modeOf
  split
  · next h => split <;> simp_all
  · next h =>
    have hk : k ≤ op.params := by omega
    rcases d with _ | _ | _ | d
    · simp [h]
    · by_cases hc : op.nout = 1 ∧ k = op.params
      · simp [hc]
      · simp only [Nat.zero_add]
        rw [if_neg hc]
        simp only [reduceCtorEq, false_iff, h, false_and, false_or, hk, true_and, not_or]
        exact ⟨by omega, hc⟩
    · simp [h]
    · simp [hk]

/-- When the Decoder reports a word valid (R66 to R68). -/
theorem decodeWord_eq_ok {w : Word} {d : Decoded} :
    decodeWord w = .ok d ↔
      0 ≤ w.toInt ∧ opField w.toInt.toNat = d.op.code ∧ hiField w.toInt.toNat = 0 ∧
        modeOf d.op 1 (modeField 1 w.toInt.toNat) = some d.m1 ∧
        modeOf d.op 2 (modeField 2 w.toInt.toNat) = some d.m2 ∧
        modeOf d.op 3 (modeField 3 w.toInt.toNat) = some d.m3 := by
  simp only [decodeWord]
  constructor
  · intro h
    split at h
    · cases h
    · next hneg =>
      split at h
      · cases h
      · next op hop =>
        split at h
        · cases h
        · next hhi =>
          split at h
          · next m1 m2 m3 h1 h2 h3 =>
            cases h
            exact ⟨by omega, Opcode.ofCode_eq_some.1 hop, by simpa using hhi, h1, h2, h3⟩
          · cases h
  · rintro ⟨hpos, hop, hhi, h1, h2, h3⟩
    rw [if_neg (by omega), Opcode.ofCode_eq_some.2 hop]
    simp only [hhi, h1, h2, h3, ne_eq, not_true, if_false]

/-- The value of an encoded instruction word (R70). -/
theorem encodeWord_toInt (op : Opcode) (m1 m2 m3 : Mode) :
    (encodeWord op m1 m2 m3).toInt = op.code + 100 * m1.digit + 1000 * m2.digit + 10000 * m3.digit := by
  cases op <;> cases m1 <;> cases m2 <;> cases m3 <;> rfl

end Sys2Proof
end

