-- ==== Sys2Proof/Laws/Exec.lean ====
section
/-! SUPPORT. Everything a cycle's instruction can do, said once: `exec_effect`. -/

namespace Sys2Proof.Machine

/-- The exact result and the operands of an instruction of arity (2,1) (R110, R111, R140, R141). -/
def binaryForm : Instr → Option ((Int → Int → Int) × Operand × Operand × Operand)
  | .add a b dst => some (fun x y => x + y, a, b, dst)
  | .mul a b dst => some (fun x y => x * y, a, b, dst)
  | .lessThan a b dst => some (lessThanResult, a, b, dst)
  | .equals a b dst => some (equalsResult, a, b, dst)
  | _ => none

/-- The test and the operands of a conditional jump (R130, R131). -/
def jumpForm : Instr → Option ((Int → Bool) × Operand × Operand)
  | .jumpIfTrue a b => some (countsTrue, a, b)
  | .jumpIfFalse a b => some (countsFalse, a, b)
  | _ => none

/-- The ways a cycle with instruction `i`, begun in `s`, can end. -/
inductive Effect (i : Instr) (s : State) : State → Prop where
  /-- a fault: nothing committed (R207) -/
  | fault (k : FaultKind) (hk : raisedByCycle k = true) : Effect i s (s.raise k)
  /-- ADD, MUL, LESS_THAN, EQUALS commit -/
  | binary {f : Int → Int → Int} {a b dst : Operand} {x y r n : Word} {p : Nat}
      (hi : binaryForm i = some (f, a, b, dst)) (hx : resolveRead s a = .ok x) (hy : resolveRead s b = .ok y)
      (hp : resolveWrite s dst = .ok p) (hr : r.toInt = f x.toInt y.toInt) (hn : n.toInt = s.ip.toInt + 4) :
      Effect i s (((s.store p r).goto n).setStatus .running)
  /-- INPUT commits -/
  | input {dst : Operand} {v n : Word} {q : List Word} {p : Nat} (hi : i = .input dst)
      (hp : resolveWrite s dst = .ok p) (hq : s.queue = v :: q) (hn : n.toInt = s.ip.toInt + 2) :
      Effect i s ((({ s with queue := q }.store p v).goto n).setStatus .running)
  /-- INPUT starves -/
  | starve {dst : Operand} {p : Nat} (hi : i = .input dst) (hp : resolveWrite s dst = .ok p) (hq : s.queue = [])
      (hn : InDomain (s.ip.toInt + 2)) : Effect i s s.starve
  /-- OUTPUT commits -/
  | output {a : Operand} {x n : Word} (hi : i = .output a) (hx : resolveRead s a = .ok x)
      (hn : n.toInt = s.ip.toInt + 2) :
      Effect i s (((s.goto n).setStatus .running).finish (.signal (.output x)))
  /-- a jump is taken -/
  | jump {taken : Int → Bool} {a b : Operand} {x y : Word} (hi : jumpForm i = some (taken, a, b))
      (hx : resolveRead s a = .ok x) (hy : resolveRead s b = .ok y) (ht : taken x.toInt = true) :
      Effect i s ((s.goto y).setStatus .running)
  /-- a jump is not taken -/
  | pass {taken : Int → Bool} {a b : Operand} {x y n : Word} (hi : jumpForm i = some (taken, a, b))
      (hx : resolveRead s a = .ok x) (hy : resolveRead s b = .ok y) (ht : taken x.toInt = false)
      (hn : n.toInt = s.ip.toInt + 3) : Effect i s ((s.goto n).setStatus .running)
  /-- ADJUST_RELATIVE_BASE commits -/
  | base {a : Operand} {x r n : Word} (hi : i = .adjustRelativeBase a) (hx : resolveRead s a = .ok x)
      (hr : r.toInt = s.rb.toInt + x.toInt) (hn : n.toInt = s.ip.toInt + 2) :
      Effect i s (((s.setBase r).goto n).setStatus .running)
  /-- HALT -/
  | halt (hi : i = .halt) : Effect i s (({ s with halted := true, status := .halted }).finish (.signal .halted))

theorem raisedByCycle_of_resolve {k : FaultKind} (h : k = .undefinedAddress ∨ k = .overflow ∨ k = .invalidMode) :
    raisedByCycle k = true := by
  rcases h with rfl | rfl | rfl <;> rfl

theorem raisedByCycle_of_chk {v : Int} {k : FaultKind} (h : chk v = .error k) : raisedByCycle k = true := by
  rw [(chk_eq_error.1 h).1]; rfl

theorem binaryStore_effect {i : Instr} {s t : State} {f : Int → Int → Int} {a b dst : Operand}
    (hi : binaryForm i = some (f, a, b, dst)) (h : conclude s (binaryStore f a b dst s) = .next t) : Effect i s t := by
  rcases he : binaryStore f a b dst s with k | e
  · rw [he, conclude_error] at h
    cases h
    refine .fault k ?_
    simp only [binaryStore, bind_eq_error] at he
    rcases he with he | ⟨_, -, he | ⟨_, -, he | ⟨_, -, he | ⟨_, -, he | ⟨_, -, he⟩⟩⟩⟩⟩
    · exact raisedByCycle_of_resolve (resolveRead_error he)
    · exact raisedByCycle_of_resolve (resolveRead_error he)
    · exact raisedByCycle_of_resolve (effectiveAddress_error he)
    · exact raisedByCycle_of_chk he
    · exact raisedByCycle_of_chk he
    · cases he
  · rw [he] at h
    simp only [binaryStore, bind_eq_ok, pure_eq_ok, Except.ok.injEq] at he
    obtain ⟨x, hx, y, hy, p, hp, r, hr, n, hn, rfl⟩ := he
    cases h
    exact .binary hi hx hy hp (chk_eq_ok.1 hr) (sequential_eq_ok.1 hn)

theorem conditionalJump_effect {i : Instr} {s t : State} {taken : Int → Bool} {a b : Operand}
    (hi : jumpForm i = some (taken, a, b)) (h : conclude s (conditionalJump taken a b s) = .next t) :
    Effect i s t := by
  rcases he : conditionalJump taken a b s with k | e
  · rw [he, conclude_error] at h
    cases h
    refine .fault k ?_
    simp only [conditionalJump, bind_eq_error] at he
    rcases he with he | ⟨_, -, he | ⟨_, -, he⟩⟩
    · exact raisedByCycle_of_resolve (resolveRead_error he)
    · exact raisedByCycle_of_resolve (resolveRead_error he)
    · split at he
      · cases he
      · rcases bind_eq_error.1 he with he | ⟨_, -, he⟩
        · exact raisedByCycle_of_chk he
        · cases he
  · rw [he] at h
    simp only [conditionalJump, bind_eq_ok] at he
    obtain ⟨x, hx, y, hy, he⟩ := he
    split at he
    · next ht => cases he; cases h; exact .jump hi hx hy ht
    · next ht =>
      obtain ⟨n, hn, he⟩ := bind_eq_ok.1 he
      cases he; cases h
      exact .pass hi hx hy (by simpa using ht) (sequential_eq_ok.1 hn)

theorem dequeueStore_effect {dst : Operand} {s t : State} (h : conclude s (dequeueStore dst s) = .next t) :
    Effect (.input dst) s t := by
  rcases he : dequeueStore dst s with k | e
  · rw [he, conclude_error] at h
    cases h
    refine .fault k ?_
    simp only [dequeueStore, bind_eq_error] at he
    rcases he with he | ⟨_, -, he | ⟨_, -, he⟩⟩
    · exact raisedByCycle_of_resolve (effectiveAddress_error he)
    · exact raisedByCycle_of_chk he
    · split at he <;> cases he
  · rw [he] at h
    simp only [dequeueStore, bind_eq_ok] at he
    obtain ⟨p, hp, n, hn, he⟩ := he
    split at he
    · next hq =>
      cases he; cases h
      refine .starve rfl hp hq ?_
      rw [← sequential_eq_ok.1 hn]; exact inDomain_toInt n
    · next v q hq => cases he; cases h; exact .input rfl hp hq (sequential_eq_ok.1 hn)

theorem emitOperand_effect {a : Operand} {s t : State} (h : conclude s (emitOperand a s) = .next t) :
    Effect (.output a) s t := by
  rcases he : emitOperand a s with k | e
  · rw [he, conclude_error] at h
    cases h
    refine .fault k ?_
    simp only [emitOperand, bind_eq_error] at he
    rcases he with he | ⟨_, -, he | ⟨_, -, he⟩⟩
    · exact raisedByCycle_of_resolve (resolveRead_error he)
    · exact raisedByCycle_of_chk he
    · cases he
  · rw [he] at h
    simp only [emitOperand, bind_eq_ok, pure_eq_ok, Except.ok.injEq] at he
    obtain ⟨x, hx, n, hn, rfl⟩ := he
    cases h
    exact .output rfl hx (sequential_eq_ok.1 hn)

theorem adjustBase_effect {a : Operand} {s t : State} (h : conclude s (adjustBase a s) = .next t) :
    Effect (.adjustRelativeBase a) s t := by
  rcases he : adjustBase a s with k | e
  · rw [he, conclude_error] at h
    cases h
    refine .fault k ?_
    simp only [adjustBase, bind_eq_error] at he
    rcases he with he | ⟨_, -, he | ⟨_, -, he | ⟨_, -, he⟩⟩⟩
    · exact raisedByCycle_of_resolve (resolveRead_error he)
    · exact raisedByCycle_of_chk he
    · exact raisedByCycle_of_chk he
    · cases he
  · rw [he] at h
    simp only [adjustBase, bind_eq_ok, pure_eq_ok, Except.ok.injEq] at he
    obtain ⟨x, hx, r, hr, n, hn, rfl⟩ := he
    cases h
    exact .base rfl hx (chk_eq_ok.1 hr) (sequential_eq_ok.1 hn)

/-- Everything an instruction can do (R90, R96). -/
theorem exec_effect {i : Instr} {s t : State} (h : exec i s = .next t) : Effect i s t := by
  cases i with
  | add a b dst => exact binaryStore_effect rfl h
  | mul a b dst => exact binaryStore_effect rfl h
  | input dst => exact dequeueStore_effect h
  | output a => exact emitOperand_effect h
  | jumpIfTrue a b => exact conditionalJump_effect rfl h
  | jumpIfFalse a b => exact conditionalJump_effect rfl h
  | lessThan a b dst => exact binaryStore_effect rfl h
  | equals a b dst => exact binaryStore_effect rfl h
  | adjustRelativeBase a => exact adjustBase_effect h
  | halt => cases h; exact .halt rfl

/-- Everything the cycle's fetch can answer: an instruction, or a fault of a cycle. -/
theorem decodeWord_error {w : Word} {k : FaultKind} (h : decodeWord w = .error k) :
    k = .malformedOpcode ∨ k = .invalidMode := by
  simp only [decodeWord] at h
  split at h
  · cases h; exact .inl rfl
  · split at h
    · cases h; exact .inl rfl
    · split at h
      · cases h; exact .inr rfl
      · split at h
        · cases h
        · cases h; exact .inr rfl

theorem decode_invalid {ws : List Word} {k : FaultKind} (h : decode ws = .error (.invalid k)) :
    k = .malformedOpcode ∨ k = .invalidMode := by
  cases ws with
  | nil => cases h
  | cons w ws =>
    simp only [decode] at h
    split at h
    · next hw => cases h; exact decodeWord_error hw
    · split at h <;> cases h

theorem fetch_error {s : State} {k : FaultKind} (h : fetch s = .error k) : raisedByCycle k = true := by
  simp only [fetch] at h
  split at h
  · next hc => cases h; rw [(checkAddress_eq_error.1 hc).1]; rfl
  · split at h
    · cases h
    · next hd =>
      cases h
      rcases decode_invalid hd with rfl | rfl <;> rfl
    · cases h; rfl

/-- The fetch depends on memory and the instruction pointer alone (R91, R92). -/
theorem fetch_congr {s t : State} (hm : s.mem = t.mem) (hi : s.ip = t.ip) : fetch s = fetch t := by
  unfold fetch; rw [hm, hi]

end Sys2Proof.Machine
end

