-- ==== Sys2Proof/Laws/Step.lean ====
section
/-! SUPPORT. Everything a step can do, said once: `step_cases`. -/

namespace Sys2Proof.Machine

theorem canCycle_iff (s : State) : s.canCycle = true ↔ s.inCall = true ∧ s.status.runnable = true := by
  simp [State.canCycle]

theorem runnable_iff (st : Status) : st.runnable = true ↔ st = .running ∨ st = .awaitingInput := by
  cases st <;> simp [Status.runnable]

/-- While cycles may run, a step is one cycle (R90). -/
theorem step_cycle {s : State} (h : s.canCycle = true) : step s = cycle s := if_pos h

theorem step_idle {s : State} (h : s.canCycle = false) (hc : s.calls = []) : step s = .next s := by
  simp [step, h, hc]

theorem step_serve {s : State} {c : HostCall} {cs : List HostCall} (h : s.canCycle = false) (hc : s.calls = c :: cs) :
    step s = .next ({ s with calls := cs }.serve c) := by
  simp [step, h, hc]

theorem cycle_of_fetch {s : State} {i : Instr} (h : fetch s = .ok i) : cycle s = exec i s := by
  simp [cycle, h]

theorem cycle_of_fault {s : State} {k : FaultKind} (h : fetch s = .error k) : cycle s = .next (s.raise k) := by
  simp [cycle, h]

theorem exec_next (i : Instr) (s : State) : ∃ t, exec i s = .next t := by
  cases i with
  | halt => exact ⟨_, rfl⟩
  | _ => exact conclude_next s _

theorem cycle_next (s : State) : ∃ t, cycle s = .next t := by
  rcases h : fetch s with k | i
  · exact ⟨_, cycle_of_fault h⟩
  · rw [cycle_of_fetch h]; exact exec_next i s

/-- Everything a step can do: a cycle's fetch faults, its instruction takes effect, a host call is served, or nothing. -/
theorem step_cases {s t : State} (h : step s = .next t) :
    (s.canCycle = true ∧ ∃ k, fetch s = .error k ∧ raisedByCycle k = true ∧ t = s.raise k) ∨
    (s.canCycle = true ∧ ∃ i, fetch s = .ok i ∧ exec i s = .next t ∧ Effect i s t) ∨
    (s.canCycle = false ∧ ∃ c cs, s.calls = c :: cs ∧ t = { s with calls := cs }.serve c) ∨
    (s.canCycle = false ∧ s.calls = [] ∧ t = s) := by
  rcases hc : s.canCycle with _ | _
  · rcases hl : s.calls with _ | ⟨c, cs⟩
    · rw [step_idle hc hl] at h; cases h
      exact .inr (.inr (.inr ⟨rfl, rfl, rfl⟩))
    · rw [step_serve hc hl] at h; cases h
      exact .inr (.inr (.inl ⟨rfl, c, cs, rfl, rfl⟩))
  · rw [step_cycle hc] at h
    rcases hf : fetch s with k | i
    · rw [cycle_of_fault hf] at h; cases h
      exact .inl ⟨rfl, k, rfl, fetch_error hf, rfl⟩
    · rw [cycle_of_fetch hf] at h
      exact .inr (.inl ⟨rfl, i, rfl, h, exec_effect h⟩)

/-- What starting a resume call leaves alone (R171). -/
theorem beginResume_cases (s : State) (input : Option Word) :
    (s.status = .halted ∧ s.beginResume input = s.answer (.fault .resumeAfterHalt s.ip)) ∨
    (∃ k f, s.status = .faulted k f ∧ s.beginResume input = s.answer (.fault k f)) ∨
    (s.status.runnable = true ∧
      s.beginResume input = { s with queue := s.queue ++ input.toList, status := .running, inCall := true }) := by
  unfold State.beginResume
  split
  · next h => exact .inl ⟨h, rfl⟩
  · next k f h => exact .inr (.inl ⟨k, f, h, rfl⟩)
  · next h => exact .inr (.inr ⟨by rw [h]; rfl, rfl⟩)
  · next h => exact .inr (.inr ⟨by rw [h]; rfl, rfl⟩)

end Sys2Proof.Machine
end

