-- ==== Sys2Proof/Laws/PerInstr.lean ====
section
/-! SUPPORT. Statements about each instruction as syntax, one lemma per constructor. -/

namespace Sys2Proof.Laws.EncodedLength

/-- An instruction occupies `1 + n` words, `n` its opcode's parameter count (R60). -/
def Statement (i : Instr) : Prop := (encode i).length = 1 + i.op.params

theorem add (a b dst : Operand) : Statement (.add a b dst) := rfl
theorem mul (a b dst : Operand) : Statement (.mul a b dst) := rfl
theorem input (dst : Operand) : Statement (.input dst) := rfl
theorem output (a : Operand) : Statement (.output a) := rfl
theorem jumpIfTrue (a b : Operand) : Statement (.jumpIfTrue a b) := rfl
theorem jumpIfFalse (a b : Operand) : Statement (.jumpIfFalse a b) := rfl
theorem lessThan (a b dst : Operand) : Statement (.lessThan a b dst) := rfl
theorem equals (a b dst : Operand) : Statement (.equals a b dst) := rfl
theorem adjustRelativeBase (a : Operand) : Statement (.adjustRelativeBase a) := rfl
theorem halt : Statement .halt := rfl

end Sys2Proof.Laws.EncodedLength
end

