-- ==== Sys2Proof/Tests/Slice0.lean ====
section
/-! SUPPORT. Tests of the model, each expected value from the spec (95_test_vectors.md part L unless another source is
named), and for every obligation with hypotheses a witness: a concrete state and operands that meet them together. -/

namespace Sys2Proof.Tests

open Sys2Proof.Machine Sys2Proof.Claims

/-- `MAX` and `MIN`. -/
abbrev mx : Int := 9223372036854775807
abbrev mn : Int := -9223372036854775808

/-- A fresh instance with the given words from address 0 on and a resume call active. -/
def boot (ws : List Int) : State :=
  { State.reset with mem := Memory.load 0 (ws.map (BitVec.ofInt 64)), inCall := true }

/-- The same with the words from address `a` on, and `ip` there. -/
def bootAt (a : Nat) (ws : List Int) : State :=
  { State.reset with mem := Memory.load a (ws.map (BitVec.ofInt 64)), ip := BitVec.ofNat 64 a, inCall := true }

/-- An instance between calls, with the calls the host is going to make. -/
def idle (s : State) (calls : List HostCall) : State := { s with inCall := false, calls := calls }

/-- A halted instance at `ip` 18, and one faulted with `Overflow` at 5. -/
def halted18 : State := { State.reset with ip := 18, halted := true, status := .halted }
def faulted5 : State := { State.reset with ip := 5, status := .faulted .overflow 5 }

/-- The state after one step. -/
def after (s : State) : State :=
  match step s with
  | .next t => t
  | .fault _ => s
  | .refused _ => s

/-- Operands. -/
def pos (v : Int) : Operand := ⟨.position, BitVec.ofInt 64 v⟩
def imm (v : Int) : Operand := ⟨.immediate, BitVec.ofInt 64 v⟩
def rel (v : Int) : Operand := ⟨.relative, BitVec.ofInt 64 v⟩

/-! ### WellFormed refuses an immediate output operand (R68, clause 2) -/

theorem test_wf_refuses_add : (Instr.add (imm 1) (imm 2) (imm 3)).wf = false := by decide
theorem test_wf_refuses_mul : (Instr.mul (imm 1) (imm 2) (imm 3)).wf = false := by decide
theorem test_wf_refuses_input : (Instr.input (imm 3)).wf = false := by decide
theorem test_wf_refuses_less_than : (Instr.lessThan (pos 1) (rel 2) (imm 3)).wf = false := by decide
theorem test_wf_refuses_equals : (Instr.equals (rel 1) (pos 2) (imm 3)).wf = false := by decide

/-! ### Decoding, a word for every constructor (L2-1) -/

theorem test_decode_add : decode [21101, 2, 3, -4] = .ok (.add (imm 2) (imm 3) (rel (-4)), []) := by rfl
theorem test_decode_mul : decode [1002, 4, 3, 4] = .ok (.mul (pos 4) (imm 3) (pos 4), []) := by rfl
theorem test_decode_input : decode [203, -3] = .ok (.input (rel (-3)), []) := by rfl
theorem test_decode_output : decode [104, 7] = .ok (.output (imm 7), []) := by rfl
theorem test_decode_jump_if_true : decode [2205, 1, 9, 5] = .ok (.jumpIfTrue (rel 1) (rel 9), [5]) := by rfl
theorem test_decode_jump_if_false : decode [1106, 7, 9] = .ok (.jumpIfFalse (imm 7) (imm 9), []) := by rfl
theorem test_decode_less_than :
    decode [21107, -5, 3, 20] = .ok (.lessThan (imm (-5)) (imm 3) (rel 20), []) := by rfl
theorem test_decode_equals : decode [1008, 100, 16, 101] = .ok (.equals (pos 100) (imm 16) (pos 101), []) := by rfl
theorem test_decode_adjust_relative_base : decode [209, 3] = .ok (.adjustRelativeBase (rel 3), []) := by rfl
theorem test_decode_halt : decode [99, 1] = .ok (.halt, [1]) := by rfl

theorem test_decode_invalid_mode :
    [11101, 103, 304, 1004, 22205, 309, 199, 1099, 100001].map decodeWord =
      List.replicate 9 (.error .invalidMode) := by rfl
theorem test_decode_malformed_opcode :
    [0, 10, 98, 100, -1, -99].map decodeWord = List.replicate 6 (.error .malformedOpcode) := by rfl

/-- Bits numbered as assumption log 6 says: MUL 1002,4,3,4 in 256 bits, and HALT in 8. -/
theorem test_table_word_mul : decodeTableWord 256 (1002 + 4 * 2 ^ 64 + 3 * 2 ^ 128 + 4 * 2 ^ 192) =
    some (.mul (pos 4) (imm 3) (pos 4)) := by rfl
theorem test_table_word_halt : decodeTableWord 8 99 = some .halt := by rfl
/-- The first step after reset runs OUTPUT #7 placed by `withFetchWord`. -/
theorem test_fetch_word_runs : (after (State.reset.withFetchWord 128 (104 + 7 * 2 ^ 64))).replies =
    [.signal (.output 7)] := by rfl

/-! ### One step of each instruction -/

/-- L2-3: the operands are read before the result is written over them. -/
theorem test_add_aliased : (after (boot [1, 7, 7, 7, 0, 0, 0, 21])).mem.read 7 = 42 := by rfl
/-- L2-3: `1101,MAX,1,7` overflows and writes nothing. -/
theorem test_add_overflow : after (boot [1101, mx, 1, 7]) = faultedAt (boot [1101, mx, 1, 7]) .overflow := by rfl
/-- L1-2. -/
theorem test_mul_immediate : (after (boot [1002, 4, 3, 4, 33])).mem.read 4 = 99 := by rfl
/-- L2-3: `1102,MIN,-1,7`. -/
theorem test_mul_overflow : after (boot [1102, mn, -1, 7]) = faultedAt (boot [1102, mn, -1, 7]) .overflow := by rfl
/-- L2-4: `203,-3` with `rb=10`, `Q=[-8]`. -/
theorem test_input_relative :
    ((after { boot [203, -3] with rb := 10, queue := [-8] }).mem.read 7,
      (after { boot [203, -3] with rb := 10, queue := [-8] }).queue) = (-8, []) := by rfl
/-- L2-4: `3,9` with an empty queue. -/
theorem test_input_starves : after (boot [3, 9]) =
    { boot [3, 9] with status := .awaitingInput, inCall := false, replies := [.signal .needsInput] } := by rfl
/-- L2-4: `204,-1` with `rb=1` gives its own instruction word. -/
theorem test_output_relative : (after { boot [204, -1] with rb := 1 }).replies = [.signal (.output 204)] := by rfl
/-- L2-8: no output is returned when the next `ip` would be beyond `MAX`. -/
theorem test_output_at_end : (after (bootAt 9223372036854775806 [104, 5])).replies =
    [.fault .overflow 9223372036854775806] := by rfl
/-- L2-5: a taken jump to -4 is no fault of the jump. -/
theorem test_jump_if_true_negative_target : ((after (boot [1105, -5, -4])).ip, (after (boot [1105, -5, -4])).status) =
    (-4, .running) := by rfl
/-- L2-5: at `MAX-2` a jump that is not taken overflows. -/
theorem test_jump_if_true_at_end : (after (bootAt 9223372036854775805 [1105, 0, 0])).replies =
    [.fault .overflow 9223372036854775805] := by rfl
/-- L2-5. -/
theorem test_jump_if_false_taken : (after (boot [1106, 0, 9])).ip = 9 := by rfl
theorem test_jump_if_false_not_taken : (after (boot [1106, 7, 9])).ip = 3 := by rfl
/-- L2-6: the comparison is signed. -/
theorem test_less_than_signed : (after (boot [1107, mn, mx, 20])).mem.read 20 = 1 := by rfl
/-- L2-6. -/
theorem test_less_than_equal_operands : (after (boot [1107, 3, 3, 20, 0])).mem.read 20 = 0 := by rfl
/-- L2-6. -/
theorem test_equals_zero : (after (boot [1108, 0, 0, 20])).mem.read 20 = 1 := by rfl
theorem test_equals_differs : (after (boot [1108, -1, mx, 0])).mem.read 0 = 0 := by rfl
/-- L2-7: the operand is read with the old base. -/
theorem test_adjust_old_base : (after { boot [209, 3, 0, 0, 0, 40] with rb := 2 }).rb = 42 := by rfl
/-- L2-7: `109,1` with `rb=MAX`. -/
theorem test_adjust_overflow : (after { boot [109, 1] with rb := 9223372036854775807 }).status =
    .faulted .overflow 0 := by rfl
/-- L2-8: HALT at `MAX` halts in place. -/
theorem test_halt_at_end : ((after (bootAt 9223372036854775807 [99])).ip, (after (bootAt 9223372036854775807 [99])).status) =
    (9223372036854775807, .halted) := by rfl
/-- L2-8: parameter 1's address sum overflows before anything else is looked at. -/
theorem test_priority_first_parameter : (after { boot [2201, -1, -1, 0] with rb := -9223372036854775808 }).status =
    .faulted .overflow 0 := by rfl
/-- L2-8: a parameter address beyond `MAX`. -/
theorem test_parameter_beyond_end : (after (bootAt 9223372036854775807 [4])).replies =
    [.fault .overflow 9223372036854775807] := by rfl
/-- L2-9. -/
theorem test_resume_after_halt : after (idle halted18 [.resume (some 5)]) =
    { halted18 with replies := [.fault .resumeAfterHalt 18] } := by rfl
/-- L2-9. -/
theorem test_peek_negative : after (idle State.reset [.peek (-1)]) =
    { State.reset with replies := [.peekError .undefinedAddress] } := by rfl
/-- L1-7: the text `OK`. -/
theorem test_line_inputs : lineInputs ['O', 'K'] = [79, 75, 10] := by rfl
/-- L3, P3: the listing assembles to its encoding. -/
theorem test_assemble_p3 : assemble
    [⟨none, .op .add [.immediate (.num 99), .immediate (.num 0), .position (.num 6)]⟩,
      ⟨none, .op .output [.immediate (.num 7)]⟩, ⟨none, .op .output [.immediate (.num 8)]⟩, ⟨none, .op .halt []⟩] =
    some [1101, 99, 0, 6, 104, 7, 104, 8, 99] := by rfl

/-! ### Witnesses of the obligations' hypotheses -/

/-- The least and the greatest value, and the greatest address domain the premise admits is not exceeded. -/
theorem witness_ConstructGivesResetState :
    (∀ v ∈ [mn, 0, mx], InDomain v) ∧ (([mn, 0, mx].length : Nat) ≤ Config.maxAddress + 1) := by decide

/-- One above the domain and one below it. -/
theorem witness_ConstructRefusesAndAccepts :
    (∃ v ∈ [99, mx + 1], ¬InDomain v) ∧ (∃ v ∈ [mn - 1], ¬InDomain v) := by decide

theorem witness_DecodeReadsBackEncode :
    (Instr.add (rel mn) (imm mx) (rel 0)).wf = true ∧ (Instr.input (pos (-1))).wf = true := by decide

theorem witness_DecodedInstructionIsItsWords :
    decode [22201, -1, 1, 2, 3] = .ok (.add (rel (-1)) (rel 1) (rel 2), [3]) := by rfl

theorem witness_WordFieldsRoundTrip : decodeWord 22208 = .ok ⟨.equals, .relative, .relative, .relative⟩ ∧
    encodeWord .halt .position .position .position ∈ validWords .halt := ⟨by rfl, by decide⟩

/-- A valid word and an invalid one on the other side of each equivalence. -/
theorem witness_NinetyNineValidWords : decodeWord 22201 = .ok ⟨.add, .relative, .relative, .relative⟩ ∧
    decodeWord 22202 = .ok ⟨.mul, .relative, .relative, .relative⟩ ∧ decodeWord 12201 = .error .invalidMode :=
  ⟨by rfl, by rfl, by rfl⟩

theorem witness_MalformedOpcodeExactly : (BitVec.toInt (-1 : Word) < 0) ∧
    ((100 : Word).toInt % 100 ∉ ([1, 2, 3, 4, 5, 6, 7, 8, 9, 99] : List Int)) ∧
    ((10 : Word).toInt % 100 ∉ ([1, 2, 3, 4, 5, 6, 7, 8, 9, 99] : List Int)) := by decide

/-- Each way to be in the first clause, and each disjunct of `bad` alone in the second (R68). -/
theorem witness_InvalidModeExactly :
    (BitVec.toInt (-1 : Word) < 0) ∧
    (∀ op ∈ opcodes, (98 : Word).toInt % 100 ≠ op.code) ∧
    (0 ≤ (100001 : Word).toInt ∧ (100001 : Word).toInt % 100 = Opcode.add.code ∧ (100001 : Word).toInt / 100000 ≠ 0) ∧
    (0 ≤ (304 : Word).toInt ∧ (304 : Word).toInt % 100 = Opcode.output.code ∧ 2 < (304 : Word).toInt / 10 ^ 2 % 10) ∧
    (0 ≤ (1004 : Word).toInt ∧ (1004 : Word).toInt % 100 = Opcode.output.code ∧
      (1004 : Word).toInt / 10 ^ 3 % 10 ≠ 0) ∧
    (0 ≤ (11101 : Word).toInt ∧ (11101 : Word).toInt % 100 = Opcode.add.code ∧
      (11101 : Word).toInt / 10 ^ 4 % 10 = 1) ∧
    (0 ≤ (99 : Word).toInt ∧ (99 : Word).toInt % 100 = Opcode.halt.code ∧ (99 : Word).toInt / 100000 = 0 ∧
      (99 : Word).toInt / 10 ^ 2 % 10 = 0 ∧ (99 : Word).toInt / 10 ^ 3 % 10 = 0 ∧
      (99 : Word).toInt / 10 ^ 4 % 10 = 0) := by decide

/-- HALT at `MAX`, and ADD at `MAX-3`, whose last parameter is at `MAX`. -/
theorem witness_StepRunsDecodedInstruction :
    ((bootAt 9223372036854775807 [99]).canCycle = true ∧ Instr.halt.wf = true ∧
      0 ≤ (bootAt 9223372036854775807 [99]).ip.toInt ∧ (bootAt 9223372036854775807 [99]).ip.toInt ≤ Config.maxValue ∧
      [(bootAt 9223372036854775807 [99]).mem.read 9223372036854775807] = encode .halt) ∧
    ((bootAt 9223372036854775804 [1101, 2, 3, 7]).canCycle = true ∧
      (Instr.add (imm 2) (imm 3) (pos 7)).wf = true ∧ 0 ≤ (bootAt 9223372036854775804 [1101, 2, 3, 7]).ip.toInt ∧
      (bootAt 9223372036854775804 [1101, 2, 3, 7]).ip.toInt + 3 ≤ Config.maxValue ∧
      (List.range 4).map (fun k => (bootAt 9223372036854775804 [1101, 2, 3, 7]).mem.read (9223372036854775804 + k)) =
        encode (.add (imm 2) (imm 3) (pos 7))) := by decide

/-- Each clause: `ip` -1 and `MIN`, a fetch that succeeds at `MAX`, an invalid word at 0, a word never written. -/
theorem witness_FetchFaults :
    ((boot []).canCycle = true ∧ ({ boot [] with ip := -1 } : State).ip.toInt < 0) ∧
    ({ boot [] with ip := -9223372036854775808 } : State).ip.toInt < 0 ∧
    (0 ≤ (bootAt 9223372036854775807 [99]).ip.toInt ∧ fetch (bootAt 9223372036854775807 [99]) = .ok .halt) ∧
    (0 ≤ (boot [304]).ip.toInt ∧ decodeWord ((boot [304]).mem.read (boot [304]).ip.toInt.toNat) = .error .invalidMode) ∧
    (0 ≤ (bootAt 12 []).ip.toInt ∧ (bootAt 12 []).mem.read (bootAt 12 []).ip.toInt.toNat = 0) :=
  ⟨by decide, by decide, ⟨by decide, by rfl⟩, ⟨by decide, by rfl⟩, by decide⟩

/-- Each parameter in turn the first one beyond `MAX`. -/
theorem witness_ParameterBeyondMaxOverflows :
    ((bootAt 9223372036854775807 [4]).canCycle = true ∧ 0 ≤ (bootAt 9223372036854775807 [4]).ip.toInt ∧
      decodeWord ((bootAt 9223372036854775807 [4]).mem.read 9223372036854775807) =
        .ok ⟨.output, .position, .position, .position⟩ ∧
      Config.maxValue < (bootAt 9223372036854775807 [4]).ip.toInt + Opcode.output.nin + Opcode.output.nout) ∧
    ((bootAt 9223372036854775805 [1]).canCycle = true ∧ 0 ≤ (bootAt 9223372036854775805 [1]).ip.toInt ∧
      decodeWord ((bootAt 9223372036854775805 [1]).mem.read 9223372036854775805) =
        .ok ⟨.add, .position, .position, .position⟩ ∧
      Config.maxValue < (bootAt 9223372036854775805 [1]).ip.toInt + Opcode.add.nin + Opcode.add.nout) :=
  ⟨⟨by decide, by decide, by rfl, by decide⟩, ⟨by decide, by decide, by rfl, by decide⟩⟩

/-- The boundary values of every clause (L2-2): raw -1, 0 and `MAX`; sums `MAX + 1`, `MIN - 1`, -1, 0 and `MAX`. -/
theorem witness_ResolverReadForms :
    ((-1 : Word).toInt < 0 ∧ 0 ≤ (0 : Word).toInt ∧ 0 ≤ (9223372036854775807 : Word).toInt) ∧
    ¬InDomain (({ boot [] with rb := 9223372036854775807 } : State).rb.toInt + (1 : Word).toInt) ∧
    ¬InDomain (({ boot [] with rb := -9223372036854775808 } : State).rb.toInt + (-1 : Word).toInt) ∧
    (InDomain (({ boot [] with rb := 10 } : State).rb.toInt + (-11 : Word).toInt) ∧
      ({ boot [] with rb := 10 } : State).rb.toInt + (-11 : Word).toInt < 0) ∧
    (InDomain (({ boot [] with rb := 10 } : State).rb.toInt + (-10 : Word).toInt) ∧
      0 ≤ ({ boot [] with rb := 10 } : State).rb.toInt + (-10 : Word).toInt) ∧
    (InDomain (({ boot [] with rb := 9223372036854775806 } : State).rb.toInt + (1 : Word).toInt) ∧
      0 ≤ ({ boot [] with rb := 9223372036854775806 } : State).rb.toInt + (1 : Word).toInt) := by decide

/-- The hypotheses are those of the read forms: raw `MIN` and 0; sums `MAX + 1`, -1 and 0, from a negative base too. -/
theorem witness_ResolverWriteForms :
    ((-9223372036854775808 : Word).toInt < 0 ∧ 0 ≤ (0 : Word).toInt) ∧
    ¬InDomain (({ boot [] with rb := 9223372036854775807 } : State).rb.toInt + (1 : Word).toInt) ∧
    (InDomain (({ boot [] with rb := -5 } : State).rb.toInt + (4 : Word).toInt) ∧
      ({ boot [] with rb := -5 } : State).rb.toInt + (4 : Word).toInt < 0) ∧
    (InDomain (({ boot [] with rb := -5 } : State).rb.toInt + (5 : Word).toInt) ∧
      0 ≤ ({ boot [] with rb := -5 } : State).rb.toInt + (5 : Word).toInt) := by decide

/-- Operands that all resolve: sums `MAX` and `MAX + 1`. -/
theorem witness_AddWritesExactSum :
    resolveRead (boot []) (imm mx) = .ok 9223372036854775807 ∧ resolveRead (boot []) (pos 3) = .ok 0 ∧
    resolveWrite (boot []) (rel mx) = .ok 9223372036854775807 ∧
    (InDomain ((9223372036854775807 : Word).toInt + (0 : Word).toInt) ∧ (boot []).ip.toInt + 4 ≤ Config.maxValue) ∧
    resolveRead (boot []) (imm 1) = .ok 1 ∧ ¬InDomain ((9223372036854775807 : Word).toInt + (1 : Word).toInt) ∧
    Config.maxValue < (bootAt 9223372036854775804 []).ip.toInt + 4 :=
  ⟨by rfl, by rfl, by rfl, by decide, by rfl, by decide, by decide⟩

/-- Products `MIN * 1` and `MIN * -1`. -/
theorem witness_MulWritesExactProduct :
    resolveRead (boot []) (imm mn) = .ok (-9223372036854775808) ∧ resolveRead (boot []) (imm 1) = .ok 1 ∧
    resolveWrite (boot []) (pos 7) = .ok 7 ∧
    (InDomain ((-9223372036854775808 : Word).toInt * (1 : Word).toInt) ∧ (boot []).ip.toInt + 4 ≤ Config.maxValue) ∧
    resolveRead (boot []) (imm (-1)) = .ok (-1) ∧
    ¬InDomain ((-9223372036854775808 : Word).toInt * (-1 : Word).toInt) ∧
    Config.maxValue < (bootAt 9223372036854775804 []).ip.toInt + 4 :=
  ⟨by rfl, by rfl, by rfl, by decide, by rfl, by decide, by decide⟩

/-- The last `ip` from which LESS_THAN and EQUALS complete, `MAX-4`, and the first from which they overflow. -/
theorem witness_LessThanWritesSignedComparison :
    resolveRead (bootAt 9223372036854775803 []) (imm mn) = .ok (-9223372036854775808) ∧
    resolveRead (bootAt 9223372036854775803 []) (imm mx) = .ok 9223372036854775807 ∧
    resolveWrite (bootAt 9223372036854775803 []) (pos 20) = .ok 20 ∧
    (bootAt 9223372036854775803 []).ip.toInt + 4 ≤ Config.maxValue ∧
    Config.maxValue < (bootAt 9223372036854775804 []).ip.toInt + 4 :=
  ⟨by rfl, by rfl, by rfl, by decide, by decide⟩

theorem witness_EqualsWritesEquality :
    resolveRead (bootAt 9223372036854775803 []) (pos 5) = .ok 0 ∧
    resolveRead (bootAt 9223372036854775803 []) (imm 0) = .ok 0 ∧
    resolveWrite (bootAt 9223372036854775803 []) (rel 0) = .ok 0 ∧
    (bootAt 9223372036854775803 []).ip.toInt + 4 ≤ Config.maxValue ∧
    Config.maxValue < (bootAt 9223372036854775804 []).ip.toInt + 4 :=
  ⟨by rfl, by rfl, by rfl, by decide, by decide⟩

/-- A queue of one value and an empty one, with `ip` `MAX-2`; and `ip` `MAX-1`. -/
theorem witness_InputConsumesOldest :
    resolveWrite (bootAt 9223372036854775805 []) (pos 9) = .ok 9 ∧
    ({ bootAt 9223372036854775805 [] with queue := [42] } : State).queue = 42 :: [] ∧
    (bootAt 9223372036854775805 []).queue = [] ∧ (bootAt 9223372036854775805 []).ip.toInt + 2 ≤ Config.maxValue ∧
    Config.maxValue < (bootAt 9223372036854775806 []).ip.toInt + 2 :=
  ⟨by rfl, by rfl, by rfl, by decide, by decide⟩

theorem witness_OutputReturnsOperand :
    resolveRead (bootAt 9223372036854775805 []) (imm mn) = .ok (-9223372036854775808) ∧
    (bootAt 9223372036854775805 []).ip.toInt + 2 ≤ Config.maxValue ∧
    resolveRead (bootAt 9223372036854775806 []) (pos 0) = .ok 0 ∧
    Config.maxValue < (bootAt 9223372036854775806 []).ip.toInt + 2 :=
  ⟨by rfl, by decide, by rfl, by decide⟩

/-- Conditions -1 and 0, target `MIN`, and `ip` on both sides of the limit. -/
theorem witness_JumpIfTrueJumps :
    resolveRead (boot []) (imm (-1)) = .ok (-1) ∧ resolveRead (boot []) (imm mn) = .ok (-9223372036854775808) ∧
    (-1 : Word) ≠ 0 ∧ resolveRead (boot []) (pos 4) = .ok 0 ∧
    (bootAt 9223372036854775804 []).ip.toInt + 3 ≤ Config.maxValue ∧
    Config.maxValue < (bootAt 9223372036854775805 []).ip.toInt + 3 :=
  ⟨by rfl, by rfl, by decide, by rfl, by decide, by decide⟩

/-- Conditions 0 and `MAX`, target `MAX`, and `ip` on both sides of the limit. -/
theorem witness_JumpIfFalseJumps :
    resolveRead (boot []) (rel 4) = .ok 0 ∧ resolveRead (boot []) (imm mx) = .ok 9223372036854775807 ∧
    (9223372036854775807 : Word) ≠ 0 ∧ (bootAt 9223372036854775804 []).ip.toInt + 3 ≤ Config.maxValue ∧
    Config.maxValue < (bootAt 9223372036854775805 []).ip.toInt + 3 :=
  ⟨by rfl, by rfl, by decide, by decide, by decide⟩

/-- New bases `MAX` and `MAX + 1`, and `ip` on both sides of the limit. -/
theorem witness_AdjustRelativeBaseAdds :
    resolveRead { boot [] with rb := 9223372036854775806 } (imm 1) = .ok 1 ∧
    InDomain ((9223372036854775806 : Word).toInt + (1 : Word).toInt) ∧ (boot []).ip.toInt + 2 ≤ Config.maxValue ∧
    ¬InDomain ((9223372036854775807 : Word).toInt + (1 : Word).toInt) ∧
    Config.maxValue < (bootAt 9223372036854775806 []).ip.toInt + 2 :=
  ⟨by rfl, by decide, by decide, by decide, by decide⟩

/-- A fault of parameter 1, of parameter 2, of the output operand. -/
theorem witness_OperandFaultsInParameterOrder :
    resolveRead (boot []) (pos (-1)) = .error .undefinedAddress ∧ resolveRead (boot []) (imm 5) = .ok 5 ∧
    resolveRead { boot [] with rb := 9223372036854775807 } (rel 1) = .error .overflow ∧
    resolveWrite (boot []) (pos (-1)) = .error .undefinedAddress ∧
    resolveWrite (boot []) (imm 3) = .error .invalidMode := ⟨by rfl, by rfl, by rfl, by rfl, by rfl⟩

/-- A store that goes on, of ADD and of INPUT, and an output operand that resolves to no address. -/
theorem witness_StoringInstructionsFrame :
    ((boot [1, 1]).mem.wf ∧ exec (.add (pos 0) (imm 1) (pos 7)) (boot [1, 1]) = .next { boot [1, 1] with
        mem := [(0, 1), (1, 1), (7, 2)], ip := 4 } ∧
      resolveRead (boot [1, 1]) (pos 0) = .ok 1 ∧ resolveRead (boot [1, 1]) (imm 1) = .ok 1 ∧
      resolveWrite (boot [1, 1]) (pos 7) = .ok 7 ∧
      ({ boot [1, 1] with mem := [(0, 1), (1, 1), (7, 2)], ip := 4 } : State).status = .running) ∧
    exec (.input (pos 7)) { boot [1, 1] with queue := [8] } = .next { boot [1, 1] with
      mem := [(0, 1), (1, 1), (7, 8)], ip := 2 } ∧
    (exec (.input (pos (-1))) (boot [1, 1]) = .next (faultedAt (boot [1, 1]) .undefinedAddress) ∧
      resolveWrite (boot [1, 1]) (pos (-1)) = .error .undefinedAddress) :=
  ⟨⟨by decide, by rfl, by rfl, by rfl, by rfl, by rfl⟩, by rfl, by rfl, by rfl⟩

theorem witness_NonStoringInstructionsFrame :
    exec (.adjustRelativeBase (imm 3)) (boot [1]) = .next { boot [1] with rb := 3, ip := 2 } ∧
    exec (.jumpIfTrue (imm 1) (imm 3)) (boot [1]) = .next { boot [1] with ip := 3 } := ⟨by rfl, by rfl⟩

theorem witness_FaultCommitsNothing :
    (boot [-1]).canCycle = true ∧ step (boot [-1]) = .next (faultedAt (boot [-1]) .malformedOpcode) ∧
    faulted5.status = .faulted .overflow 5 ∧ step faulted5 = .next faulted5 := ⟨by rfl, by rfl, by rfl, by rfl⟩

theorem witness_ResumeAfterHaltFaults :
    (idle halted18 [.resume none]).status = .halted ∧ (idle halted18 [.resume none]).calls = .resume none :: [] ∧
    (idle halted18 [.resume none]).Inv :=
  ⟨by rfl, by rfl, by decide, by decide, fun _ _ h => (by cases h), fun h => (by cases h)⟩

theorem witness_ResumeAfterFaultRepeatsIt :
    (idle faulted5 [.resume (some 1)]).status = .faulted .overflow 5 ∧
    (idle faulted5 [.resume (some 1)]).calls = .resume (some 1) :: [] := ⟨by rfl, by rfl⟩

theorem witness_ResumeQueuesInputFirst :
    ((idle State.reset [.resume (some 1)]).inCall = false ∧ (idle State.reset [.resume (some 1)]).status = .running ∧
      (idle State.reset [.resume (some 1)]).calls = .resume (some 1) :: []) ∧
    (idle (after (boot [3, 9])) [.resume none]).status = .awaitingInput := ⟨⟨by rfl, by rfl, by rfl⟩, by rfl⟩

theorem witness_EnqueueAppends :
    (idle halted18 [.enqueue 4]).inCall = false ∧ (idle halted18 [.enqueue 4]).calls = .enqueue 4 :: [] :=
  ⟨by rfl, by rfl⟩

/-- The addresses -1, 0, `MAX` and `MAX + 1`. -/
theorem witness_PeekReadsWithoutChange :
    (idle faulted5 [.peek mx]).inCall = false ∧ (idle faulted5 [.peek mx]).calls = .peek mx :: [] ∧
    (0 ≤ (0 : Int) ∧ (0 : Int) ≤ Config.maxValue) ∧ (0 ≤ mx ∧ mx ≤ Config.maxValue) ∧ ((-1 : Int) < 0) ∧
    Config.maxValue < mx + 1 := ⟨by rfl, by rfl, by decide, by decide, by decide, by decide⟩

theorem witness_SnapshotIsMemory :
    (idle (boot [7]) [.snapshot]).inCall = false ∧ (idle (boot [7]) [.snapshot]).calls = .snapshot :: [] ∧
    (boot [7]).mem.wf ∧ (boot [7, 0, 0]).mem.wf ∧ (∀ a, (boot [7]).mem.read a = (boot [7, 0, 0]).mem.read a) :=
  ⟨by rfl, by rfl, by decide, by decide, fun _ => by rfl⟩

/-- A call that returns a signal, one that returns a fault, and an instance with no call to come. -/
theorem witness_OneResultPerCall :
    (idle (boot [99]) []).inCall = false ∧
    (idle (boot [99]) []).resume 1 none = some (.signal .halted, { idle (boot [99]) [] with
      halted := true, status := .halted, replies := [.signal .halted] }) ∧
    halted18.resume 0 (some 3) = some (.fault .resumeAfterHalt 18, { halted18 with
      replies := [.fault .resumeAfterHalt 18] }) ∧
    (idle (boot [99]) []).calls = [] := ⟨by rfl, by rfl, by rfl, by rfl⟩

theorem witness_StepKeepsInvariant :
    (boot [3, 9]).Inv ∧ step (boot [3, 9]) = .next (after (boot [3, 9])) :=
  ⟨⟨by decide, by decide, fun _ _ h => (by cases h), fun _ => by rfl⟩, by rfl⟩

theorem witness_OnlyAdjustRelativeBaseWritesBase :
    step (boot [109, 5]) = .next (after (boot [109, 5])) ∧ (after (boot [109, 5])).rb ≠ (boot [109, 5]).rb :=
  ⟨by rfl, by decide⟩

theorem witness_HaltedFlagIsMonotonic :
    (step (boot [99]) = .next (after (boot [99])) ∧ (boot [99]).halted = false ∧ (after (boot [99])).halted = true) ∧
    (step halted18 = .next halted18 ∧ halted18.halted = true) ∧
    (boot [99]).Inv :=
  ⟨⟨by rfl, by rfl, by rfl⟩, ⟨by rfl, by rfl⟩,
    ⟨by decide, by decide, fun _ _ h => (by cases h), fun _ => by rfl⟩⟩

theorem witness_StatusTransitions :
    step (boot [104, 7]) = .next (after (boot [104, 7])) ∧ (after (boot [104, 7])).replies = [.signal (.output 7)] :=
  ⟨by rfl, by rfl⟩

theorem witness_TerminalStatusIsForever :
    halted18.status = .halted ∧ step (idle halted18 [.enqueue 4]) = .next { halted18 with queue := [4] } ∧
    faulted5.status = .faulted .overflow 5 := ⟨by rfl, by rfl, by rfl⟩

/-- A sequential advance and a jump. -/
theorem witness_InstructionPointerMoves :
    (step (boot [109, 5]) = .next (after (boot [109, 5])) ∧ (after (boot [109, 5])).ip ≠ (boot [109, 5]).ip) ∧
    (step (boot [1105, 1, 9]) = .next (after (boot [1105, 1, 9])) ∧
      (after (boot [1105, 1, 9])).ip ≠ (boot [1105, 1, 9]).ip) :=
  ⟨⟨by rfl, by decide⟩, ⟨by rfl, by decide⟩⟩

/-- Two different states that agree on memory, `ip`, `rb` and the queue. -/
theorem witness_CycleDependsOnInstanceOnly :
    (boot [99]).canCycle = true ∧ ({ boot [99] with status := .awaitingInput, calls := [.snapshot] } : State).canCycle = true ∧
    (boot [99]) ≠ { boot [99] with status := .awaitingInput, calls := [.snapshot] } ∧
    step { boot [99] with status := .awaitingInput, calls := [.snapshot] } =
      .next (after { boot [99] with status := .awaitingInput, calls := [.snapshot] }) ∧
    step (boot [99]) = .next (after (boot [99])) := ⟨by rfl, by rfl, by decide, by rfl, by rfl⟩

theorem witness_LaterInputsDoNotDisturb :
    ({ boot [3, 9] with queue := [5] } : State).canCycle = true ∧
    step { boot [3, 9] with queue := [5] } = .next (after { boot [3, 9] with queue := [5] }) ∧
    (after { boot [3, 9] with queue := [5] }).status ≠ .awaitingInput := ⟨by rfl, by rfl, by decide⟩

/-- A starved INPUT, resumed with nothing and with a value. -/
theorem witness_StarvedInputIsRunAgain :
    (boot [3, 9]).canCycle = true ∧ fetch (boot [3, 9]) = .ok (.input (pos 9)) ∧
    resolveWrite (boot [3, 9]) (pos 9) = .ok 9 ∧ (boot [3, 9]).queue = [] ∧
    (boot [3, 9]).ip.toInt + 2 ≤ Config.maxValue ∧ ([] ++ (none : Option Word).toList = ([] : List Word)) ∧
    ([7] ++ (some 8 : Option Word).toList = [(7 : Word), 8]) :=
  ⟨by rfl, by rfl, by rfl, by rfl, by decide, by rfl, by rfl⟩

/-- `1101,104,0,4,0,7`: the word stored is that of OUTPUT #7; `1101,4,0,MAX` at `MAX-4`: it is valid and its parameter
lies beyond `MAX`; `1101,-1,0,4`: it is malformed. -/
theorem witness_StoredWordIsFetchedNext :
    ((boot [1101, 104, 0, 4, 0, 7]).inCall = true ∧ (boot [1101, 104, 0, 4, 0, 7]).mem.wf ∧
      resolveRead (boot [1101, 104, 0, 4, 0, 7]) (imm 104) = .ok 104 ∧
      resolveRead (boot [1101, 104, 0, 4, 0, 7]) (imm 0) = .ok 0 ∧
      resolveWrite (boot [1101, 104, 0, 4, 0, 7]) (pos 4) = .ok 4 ∧
      InDomain ((104 : Word).toInt + (0 : Word).toInt) ∧
      ((4 : Nat) : Int) = (boot [1101, 104, 0, 4, 0, 7]).ip.toInt + 4) ∧
    ((Instr.output (imm 7)).wf = true ∧
      encode (.output (imm 7)) = [104, (boot [1101, 104, 0, 4, 0, 7]).mem.read (4 + 1)]) ∧
    ((bootAt 9223372036854775803 [1101, 4, 0, mx]).inCall = true ∧
      (bootAt 9223372036854775803 [1101, 4, 0, mx]).mem.wf ∧
      resolveWrite (bootAt 9223372036854775803 [1101, 4, 0, mx]) (pos mx) = .ok 9223372036854775807 ∧
      ((9223372036854775807 : Nat) : Int) = (bootAt 9223372036854775803 [1101, 4, 0, mx]).ip.toInt + 4 ∧
      decodeWord 4 = .ok ⟨.output, .position, .position, .position⟩ ∧
      Config.maxAddress < 9223372036854775807 + Opcode.output.nin + Opcode.output.nout) ∧
    decodeWord (-1) = .error .malformedOpcode :=
  ⟨⟨by rfl, by decide, by rfl, by rfl, by rfl, by decide, by rfl⟩, ⟨by rfl, by rfl⟩,
    ⟨by rfl, by decide, by rfl, by rfl, by rfl, by decide⟩, by rfl⟩

/-- `1105,1,0` and `1106,0,0`, each a taken jump to its own address. -/
theorem witness_SelfJumpNeverReturns :
    ((boot [1105, 1, 0]).canCycle = true ∧ fetch (boot [1105, 1, 0]) = .ok (.jumpIfTrue (imm 1) (imm 0)) ∧
      resolveRead (boot [1105, 1, 0]) (imm 1) = .ok 1 ∧ (1 : Word) ≠ 0 ∧
      resolveRead (boot [1105, 1, 0]) (imm 0) = .ok (boot [1105, 1, 0]).ip) ∧
    ((boot [1106, 0, 0]).canCycle = true ∧ fetch (boot [1106, 0, 0]) = .ok (.jumpIfFalse (imm 0) (imm 0)) ∧
      resolveRead (boot [1106, 0, 0]) (imm 0) = .ok 0 ∧
      resolveRead (boot [1106, 0, 0]) (imm 0) = .ok (boot [1106, 0, 0]).ip) :=
  ⟨⟨by rfl, by rfl, by rfl, by decide, by rfl⟩, by rfl, by rfl, by rfl, by rfl⟩

/-- A program that reads two inputs and is given one: it waits stepwise and starves in batch. -/
theorem witness_StepwiseAgreesWithBatch :
    runStepwise 4 [3, 0, 3, 1, 99] (fun given _ => [(5 : Word)][given]?) = some (.waiting 2 []) ∧
    runBatch 4 [3, 0, 3, 1, 99] [5] = some (.failed .inputStarvation 2 []) := ⟨by rfl, by rfl⟩

/-- Two instances, each one's outputs routed to the other. -/
def ring (p q : List Int) : Composition where
  instances := [idle (boot p) [], idle (boot q) []]
  pending := [[], [3]]
  route := [1, 0]
  outputs := []
  failed := none

theorem witness_TurnLeavesOtherInstances :
    ((ring [104, 7] [99]).turn 1 0).map (fun c => c.pending) = some [[], [3, 7]] ∧ (1 : Nat) ≠ 0 :=
  ⟨by rfl, by decide⟩

theorem witness_TurnRoutesOutput :
    (ring [104, 7] [99]).failed = none ∧ (ring [104, 7] [99]).instances[0]? = some (idle (boot [104, 7]) []) ∧
    (idle (boot [104, 7]) []).status ≠ .halted ∧ (ring [104, 7] [99]).pending[0]? = some [] ∧
    (idle (boot [104, 7]) []).resume 1 none = some (.signal (.output 7), { idle (boot [104, 7]) [] with
      ip := 2, replies := [.signal (.output 7)] }) ∧
    (ring [104, 7] [99]).route[0]? = some 1 ∧ (1 : Nat) ≠ 0 ∧ (ring [104, 7] [99]).pending[1]? = some [3] :=
  ⟨by rfl, by rfl, by decide, by rfl, by rfl, by rfl, by decide, by rfl⟩

theorem witness_FaultEndsComposition :
    (ring [-1] [99]).failed = none ∧ (ring [-1] [99]).instances[0]? = some (idle (boot [-1]) []) ∧
    (idle (boot [-1]) []).status ≠ .halted ∧
    (idle (boot [-1]) []).resume 1 none = some (.fault .malformedOpcode 0, { idle (boot [-1]) [] with
      status := .faulted .malformedOpcode 0, replies := [.fault .malformedOpcode 0] }) ∧
    ((ring [-1] [99]).turn 1 0).isSome = true :=
  ⟨by rfl, by rfl, by decide, by rfl, by rfl⟩

/-- OUTPUT #7 in the last two words of memory, and an invalid word at its end. -/
theorem witness_DisassemblyFindsInstruction :
    ((Instr.output (imm 7)).wf = true ∧
      9223372036854775806 + (encode (.output (imm 7))).length ≤ Config.maxAddress + 1 ∧
      (List.range 2).map (fun k => (bootAt 9223372036854775806 [104, 7]).mem.read (9223372036854775806 + k)) =
        encode (.output (imm 7))) ∧
    (9223372036854775807 ≤ Config.maxAddress ∧
      decodeWord ((boot []).mem.read 9223372036854775807) = .error .malformedOpcode) :=
  ⟨⟨by rfl, by decide, by rfl⟩, by decide, by rfl⟩

end Sys2Proof.Tests
end

/-! The halted flag (R23): what each part of a step does to it, then `Obligations.HaltedFlagIsMonotonic`. -/

namespace Sys2Proof.Machine

/-- HALT is the one instruction that sets the flag and the one that enters status Halted (R23, R160). -/
theorem Effect.halted_cases {i : Instr} {s t : State} (h : Effect i s t) :
    (i = .halt ∧ t.halted = true ∧ t.status = .halted) ∨ (t.halted = s.halted ∧ t.status ≠ .halted) := by
  cases h with
  | halt hi => exact .inl ⟨hi, rfl, rfl⟩
  | _ => exact .inr ⟨rfl, by simp⟩

theorem Status.ne_halted_of_runnable {st : Status} (h : st.runnable = true) : st ≠ .halted := by
  rintro rfl
  cases h

@[simp] theorem State.beginResume_halted (s : State) (input : Option Word) :
    (s.beginResume input).halted = s.halted := by
  obtain ⟨-, h⟩ | ⟨k, f, -, h⟩ | ⟨-, h⟩ := beginResume_cases s input <;> rw [h] <;> rfl

/-- The start of a resume call neither enters nor leaves status Halted (R171, R172). -/
@[simp] theorem State.beginResume_status_eq_halted (s : State) (input : Option Word) :
    (s.beginResume input).status = .halted ↔ s.status = .halted := by
  obtain ⟨-, h⟩ | ⟨k, f, -, h⟩ | ⟨hrun, h⟩ := beginResume_cases s input
  · simp [h]
  · simp [h]
  · simp [h, Status.ne_halted_of_runnable hrun]

@[simp] theorem State.serve_halted (s : State) (c : HostCall) : (s.serve c).halted = s.halted := by
  cases c with
  | resume input => exact s.beginResume_halted input
  | _ => rfl

@[simp] theorem State.serve_status_eq_halted (s : State) (c : HostCall) :
    (s.serve c).status = .halted ↔ s.status = .halted := by
  cases c with
  | resume input => exact s.beginResume_status_eq_halted input
  | _ => exact Iff.rfl

/-- A step fetches HALT and sets the flag with the status, or is another cycle and keeps the flag, ending in no Halted
status, or is no cycle and keeps the flag and whether the status is Halted (R23, R160). -/
theorem step_halted_cases {s t : State} (h : step s = .next t) :
    (s.canCycle = true ∧ fetch s = .ok .halt ∧ t.halted = true ∧ t.status = .halted) ∨
    (s.canCycle = true ∧ t.halted = s.halted ∧ t.status ≠ .halted) ∨
    (s.canCycle = false ∧ t.halted = s.halted ∧ (t.status = .halted ↔ s.status = .halted)) := by
  obtain ⟨hc, k, -, -, rfl⟩ | ⟨hc, i, hf, -, he⟩ | ⟨hc, c, cs, -, rfl⟩ | ⟨hc, -, rfl⟩ := step_cases h
  · exact .inr (.inl ⟨hc, rfl, by simp⟩)
  · obtain ⟨rfl, hh, hs⟩ | ⟨hh, hs⟩ := he.halted_cases
    · exact .inl ⟨hc, hf, hh, hs⟩
    · exact .inr (.inl ⟨hc, hh, hs⟩)
  · exact .inr (.inr ⟨hc, State.serve_halted _ c, State.serve_status_eq_halted _ c⟩)
  · exact .inr (.inr ⟨hc, rfl, Iff.rfl⟩)

/-- No cycle runs in status Halted (R90). -/
theorem State.status_ne_halted_of_canCycle {s : State} (h : s.canCycle = true) : s.status ≠ .halted :=
  Status.ne_halted_of_runnable ((canCycle_iff s).1 h).2

theorem step_keeps_halted {s t : State} (h : step s = .next t) (hs : s.halted = true) : t.halted = true := by
  obtain ⟨-, -, ht, -⟩ | ⟨-, ht, -⟩ | ⟨-, ht, -⟩ := step_halted_cases h
  · exact ht
  · exact ht.trans hs
  · exact ht.trans hs

theorem step_sets_halted {s t : State} (h : step s = .next t) (hs : s.halted = false) (ht : t.halted = true) :
    s.canCycle = true ∧ fetch s = .ok .halt := by
  obtain ⟨hc, hf, -, -⟩ | ⟨-, hsame, -⟩ | ⟨-, hsame, -⟩ := step_halted_cases h
  · exact ⟨hc, hf⟩
  · simp [hsame, hs] at ht
  · simp [hsame, hs] at ht

/-- The relation of the flag to the status is kept by every step; a cycle other than HALT's ends with neither, since it
began in a status that is not Halted. -/
theorem step_keeps_halted_iff {s t : State} (h : step s = .next t) (hs : s.halted = true ↔ s.status = .halted) :
    t.halted = true ↔ t.status = .halted := by
  obtain ⟨-, -, hh, ht⟩ | ⟨hc, hh, ht⟩ | ⟨-, hh, ht⟩ := step_halted_cases h
  · exact iff_of_true hh ht
  · exact iff_of_false (by rw [hh, hs]; exact State.status_ne_halted_of_canCycle hc) ht
  · rw [hh, hs, ht]

/-- Settles O40: every step is one of `step_halted_cases`. -/
theorem haltedFlagIsMonotonic : Obligations.HaltedFlagIsMonotonic :=
  ⟨rfl, fun _ _ => step_keeps_halted, fun _ _ => step_sets_halted,
    fun _ _ hinv h => step_keeps_halted_iff h hinv.halted_iff⟩

end Sys2Proof.Machine

/-! The instruction words (R61 to R70): the fields of a word, which words decode, and which fault the others report. -/

namespace Sys2Proof

open Sys2Proof.Claims

/-! ### A word and its fields -/

theorem Opcode.code_lt (op : Opcode) : op.code < 100 := by cases op <;> decide

theorem Opcode.code_injective : Function.Injective Opcode.code := fun _ _ h =>
  Option.some.inj ((Opcode.ofCode_eq_some.2 rfl).symm.trans (Opcode.ofCode_eq_some.2 h))

theorem Mode.digit_lt (m : Mode) : m.digit < 3 := by cases m <;> decide

theorem Mode.digit_injective : Function.Injective Mode.digit := by
  intro m m' h
  cases m <;> cases m' <;> simp_all [Mode.digit]

/-- The fields R61 cuts a number into are the ones it is put together from (R70). -/
theorem eq_fields_iff {n c d1 d2 d3 : Nat} (hc : c < 100) (h1 : d1 < 10) (h2 : d2 < 10) (h3 : d3 < 10) :
    n = c + 100 * d1 + 1000 * d2 + 10000 * d3 ↔
      opField n = c ∧ hiField n = 0 ∧ modeField 1 n = d1 ∧ modeField 2 n = d2 ∧ modeField 3 n = d3 := by
  simp only [opField, hiField, modeField, Nat.reduceAdd, Nat.reducePow]
  omega

/-- The instruction word of a set of fields (R70). -/
def Decoded.word (d : Decoded) : Word := encodeWord d.op d.m1 d.m2 d.m3

/-- A word is that of a set of fields exactly when these are its fields (R61, R70). -/
theorem Decoded.word_eq_iff {d : Decoded} {w : Word} :
    d.word = w ↔ 0 ≤ w.toInt ∧ opField w.toInt.toNat = d.op.code ∧ hiField w.toInt.toNat = 0 ∧
      modeField 1 w.toInt.toNat = d.m1.digit ∧ modeField 2 w.toInt.toNat = d.m2.digit ∧
      modeField 3 w.toInt.toNat = d.m3.digit := by
  have h1 := d.m1.digit_lt
  have h2 := d.m2.digit_lt
  have h3 := d.m3.digit_lt
  rw [← eq_fields_iff d.op.code_lt (by omega) (by omega) (by omega), ← BitVec.toInt_inj, Decoded.word,
    encodeWord_toInt]
  omega

theorem Decoded.word_injective : Function.Injective Decoded.word := by
  rintro ⟨op, m1, m2, m3⟩ ⟨op', m1', m2', m3'⟩ h
  obtain ⟨-, hop, -, h1, h2, h3⟩ := Decoded.word_eq_iff.1 h
  obtain ⟨-, hop', -, h1', h2', h3'⟩ := Decoded.word_eq_iff.1 (Eq.refl (Decoded.word ⟨op', m1', m2', m3'⟩))
  cases Opcode.code_injective (hop.symm.trans hop')
  cases Mode.digit_injective (h1.symm.trans h1')
  cases Mode.digit_injective (h2.symm.trans h2')
  cases Mode.digit_injective (h3.symm.trans h3')
  rfl

/-! ### The words that decode -/

theorem Opcode.nout_le_one (op : Opcode) : op.nout ≤ 1 := by cases op <;> decide

/-- R69 allows exactly the modes whose digit R68 does not refuse. -/
theorem mem_allowedModes {op : Opcode} {k : Nat} {m : Mode} :
    m ∈ allowedModes op k ↔ modeOf op k m.digit ≠ none := by
  have hout := op.nout_le_one
  rw [Ne, modeOf_eq_none, Opcode.params]
  unfold allowedModes
  cases m with
  | position => split_ifs <;> simp [Mode.digit]
  | immediate => split_ifs <;> simp [Mode.digit] <;> omega
  | relative => split_ifs <;> simp [Mode.digit] <;> omega

/-- The Decoder's mode check (R68) accepts exactly the digits of the modes R69 allows. -/
theorem modeOf_eq_some {op : Opcode} {k digit : Nat} {m : Mode} :
    modeOf op k digit = some m ↔ digit = m.digit ∧ m ∈ allowedModes op k := by
  rw [mem_allowedModes]
  constructor
  · intro h
    obtain rfl := modeOf_digit h
    exact ⟨rfl, by simp [h]⟩
  · rintro ⟨rfl, h⟩
    obtain ⟨m', h'⟩ := Option.ne_none_iff_exists'.1 h
    rw [h', Mode.digit_injective (modeOf_digit h')]

/-- The valid sets of fields of an opcode (R69). -/
def validFields (op : Opcode) : List Decoded :=
  (allowedModes op 1).flatMap fun m1 => (allowedModes op 2).flatMap fun m2 => (allowedModes op 3).map fun m3 =>
    ⟨op, m1, m2, m3⟩

theorem validWords_eq_map_word (op : Opcode) : validWords op = (validFields op).map Decoded.word := by
  simp [validWords, validFields, List.map_flatMap, Decoded.word, encodeWord, Function.comp_def]

theorem mem_validFields {op : Opcode} {d : Decoded} :
    d ∈ validFields op ↔
      d.op = op ∧ d.m1 ∈ allowedModes op 1 ∧ d.m2 ∈ allowedModes op 2 ∧ d.m3 ∈ allowedModes op 3 := by
  obtain ⟨o, m1, m2, m3⟩ := d
  simp only [validFields, List.mem_flatMap, List.mem_map, Decoded.mk.injEq]
  constructor
  · rintro ⟨_, h1, _, h2, _, h3, rfl, rfl, rfl, rfl⟩
    exact ⟨rfl, h1, h2, h3⟩
  · rintro ⟨rfl, h1, h2, h3⟩
    exact ⟨m1, h1, m2, h2, m3, h3, rfl, rfl, rfl, rfl⟩

/-- The Decoder answers a set of fields exactly when it is a valid one and the word is its word (R66 to R70). -/
theorem decodeWord_eq_ok_iff_word {w : Word} {d : Decoded} :
    decodeWord w = .ok d ↔ d ∈ validFields d.op ∧ d.word = w := by
  rw [decodeWord_eq_ok, mem_validFields, Decoded.word_eq_iff, modeOf_eq_some, modeOf_eq_some, modeOf_eq_some]
  tauto

theorem Decoded.word_mem_validWords {d : Decoded} : d.word ∈ validWords d.op ↔ d ∈ validFields d.op := by
  rw [validWords_eq_map_word, List.mem_map_of_injective Decoded.word_injective]

/-- Settles O6: the word is that of its fields (`decodeWord_eq_ok_iff_word`), and of no other fields. -/
theorem wordFieldsRoundTrip : Obligations.WordFieldsRoundTrip :=
  ⟨encodeWord_toInt, fun _ _ h => (decodeWord_eq_ok_iff_word.1 h).2,
    fun _ h => decodeWord_eq_ok_iff_word.2 ⟨Decoded.word_mem_validWords.1 h, rfl⟩⟩

theorem mem_opcodes (op : Opcode) : op ∈ opcodes := by cases op <;> decide

/-- The valid words of all opcodes (R69), each the word of its fields. -/
theorem flatMap_validWords : opcodes.flatMap validWords = (opcodes.flatMap validFields).map Decoded.word := by
  rw [List.map_flatMap, funext validWords_eq_map_word]

theorem exists_decodeWord_eq_ok_iff {w : Word} :
    (∃ d, decodeWord w = .ok d) ↔ w ∈ opcodes.flatMap validWords := by
  rw [flatMap_validWords, List.mem_map]
  refine exists_congr fun d => ?_
  rw [decodeWord_eq_ok_iff_word, List.mem_flatMap]
  constructor
  · rintro ⟨hd, hw⟩
    exact ⟨⟨d.op, mem_opcodes d.op, hd⟩, hw⟩
  · rintro ⟨⟨op, -, hd⟩, hw⟩
    obtain ⟨rfl, -⟩ := mem_validFields.1 hd
    exact ⟨hd, hw⟩

theorem nodup_validFields : (opcodes.flatMap validFields).Nodup := by decide

/-- Settles O7: the words that decode are those of the valid fields; distinct fields have distinct words. -/
theorem ninetyNineValidWords : Obligations.NinetyNineValidWords :=
  ⟨fun _ => exists_decodeWord_eq_ok_iff, flatMap_validWords ▸ nodup_validFields.map Decoded.word_injective,
    by decide, by decide⟩

/-! ### The words that do not decode -/

/-- A word with an opcode of the table is reported valid with that opcode, or `InvalidMode` (R67, R68). -/
theorem decodeWord_of_opField {w : Word} {op : Opcode} (hpos : 0 ≤ w.toInt) (hop : opField w.toInt.toNat = op.code) :
    (∃ d, decodeWord w = .ok d ∧ d.op = op) ∨ decodeWord w = .error .invalidMode := by
  simp only [decodeWord]
  rw [if_neg (by omega), Opcode.ofCode_eq_some.2 hop]
  dsimp only
  split
  · exact .inr rfl
  · split
    · exact .inl ⟨_, rfl, rfl⟩
    · exact .inr rfl

/-- `MalformedOpcode` is what the other words report, and only they (R67). -/
theorem decodeWord_eq_malformedOpcode {w : Word} :
    decodeWord w = .error .malformedOpcode ↔ w.toInt < 0 ∨ Opcode.ofCode (opField w.toInt.toNat) = none := by
  constructor
  · intro h
    by_contra hvalid
    obtain ⟨hpos, hsome⟩ := not_or.1 hvalid
    obtain ⟨op, hop⟩ := Option.ne_none_iff_exists'.1 hsome
    obtain ⟨d, hd, -⟩ | hd := decodeWord_of_opField (not_lt.1 hpos) (Opcode.ofCode_eq_some.1 hop) <;>
      simp [hd] at h
  · intro h
    simp only [decodeWord]
    split
    · rfl
    · next hpos => rw [h.resolve_left hpos]

/-- A word with an opcode of the table is valid exactly when no digit at 10^5 or above is set and every mode digit
selects a mode (R68). -/
theorem decodeWord_ok_iff_of_opField {w : Word} {op : Opcode} (hpos : 0 ≤ w.toInt)
    (hop : opField w.toInt.toNat = op.code) :
    (∃ d, decodeWord w = .ok d ∧ d.op = op) ↔
      hiField w.toInt.toNat = 0 ∧ ∀ k ∈ [1, 2, 3], modeOf op k (modeField k w.toInt.toNat) ≠ none := by
  simp only [List.forall_mem_cons, Option.ne_none_iff_exists']
  constructor
  · rintro ⟨d, hd, rfl⟩
    obtain ⟨-, -, hhi, h1, h2, h3⟩ := decodeWord_eq_ok.1 hd
    exact ⟨hhi, ⟨_, h1⟩, ⟨_, h2⟩, ⟨_, h3⟩, by simp⟩
  · rintro ⟨hhi, ⟨m1, h1⟩, ⟨m2, h2⟩, ⟨m3, h3⟩, -⟩
    exact ⟨⟨op, m1, m2, m3⟩, decodeWord_eq_ok.2 ⟨hpos, hop, hhi, h1, h2, h3⟩, rfl⟩

/-- The opcode field of a word that is not negative, as the value's remainder (R61). -/
theorem opField_cast {v : Int} (hpos : 0 ≤ v) : (opField v.toNat : Int) = v % 100 := by
  simp [opField, hpos]

theorem hiField_cast {v : Int} (hpos : 0 ≤ v) : (hiField v.toNat : Int) = v / 100000 := by
  simp [hiField, hpos]

theorem modeField_cast {v : Int} (k : Nat) (hpos : 0 ≤ v) : (modeField k v.toNat : Int) = v / 10 ^ (k + 1) % 10 := by
  simp [modeField, hpos]

/-- Settles O8: the words without an opcode of the table (`decodeWord_eq_malformedOpcode`). -/
theorem malformedOpcodeExactly : Obligations.MalformedOpcodeExactly := by
  intro w
  rw [decodeWord_eq_malformedOpcode]
  refine or_congr_right' fun hneg => ?_
  rw [Opcode.ofCode_eq_none, ← opField_cast (not_lt.1 hneg)]
  simp only [List.mem_cons, List.not_mem_nil]
  norm_cast

/-- The mode digits R68 names, read off the word's value, are those that select no mode. -/
theorem exists_badDigit_iff {v : Int} (hpos : 0 ≤ v) {op : Opcode} {k : Nat} :
    (∃ m : Int, m = v / 10 ^ (k + 1) % 10 ∧
      ((op.nin + op.nout < k ∧ m ≠ 0) ∨ (k ≤ op.nin + op.nout ∧ 2 < m) ∨
        (op.nout = 1 ∧ k = op.nin + op.nout ∧ m = 1))) ↔
      modeOf op k (modeField k v.toNat) = none := by
  rw [exists_eq_left, ← modeField_cast k hpos, modeOf_eq_none, Opcode.params]
  omega

/-- Settles O9: a word without an opcode of the table reports `MalformedOpcode`; for the others, the clauses of R68 are
the checks of `decodeWord_ok_iff_of_opField`. -/
theorem invalidModeExactly : Obligations.InvalidModeExactly := by
  refine ⟨fun w h => decodeWord_eq_malformedOpcode.2 ?_, fun w op hpos hop => ?_⟩
  · refine or_iff_not_imp_left.2 fun hneg => Option.eq_none_iff_forall_ne_some.2 fun op hop => ?_
    refine h.resolve_left hneg op ?_
    rw [← opField_cast (not_lt.1 hneg), Opcode.ofCode_eq_some.1 hop]
  · rw [← opField_cast hpos, Nat.cast_inj] at hop
    intro bad
    have hbad : bad ↔ ¬∃ d, decodeWord w = .ok d ∧ d.op = op := by
      simp only [bad, exists_badDigit_iff hpos, decodeWord_ok_iff_of_opField hpos hop, ← hiField_cast hpos,
        Nat.cast_ne_zero, not_and_or, not_forall, not_ne_iff, exists_prop]
    rw [hbad, not_not]
    exact ⟨(decodeWord_of_opField hpos hop).resolve_left, id⟩

end Sys2Proof

namespace Sys2Proof.Machine

/-! ### Pseudo-instructions -/

/-- The fields of an opcode with one mode for each of its parameters; an absent parameter's digit is 0 (R69, R80). -/
def fieldsWithModes (op : Opcode) (modes : List Mode) : Decoded :=
  ⟨op, modes.getD 0 .position, modes.getD 1 .position, modes.getD 2 .position⟩

theorem wordWithModes_of_mem_validFields {op : Opcode} {modes : List Mode} (hlen : modes.length = op.params)
    (hvalid : fieldsWithModes op modes ∈ validFields op) :
    wordWithModes op modes = some (fieldsWithModes op modes).word :=
  if_pos ⟨hlen, decodeWord_eq_ok_iff_word.2 ⟨hvalid, rfl⟩⟩

/-- A statement whose operands have the modes of valid fields assembles to the word of these fields and the operands'
values (R68 to R70, R80). -/
theorem AsmStmt.assemble_op {labels : List (String × Int)} {op : Opcode} {operands : List AsmOperand}
    (modes : List Mode) (vals : List Int) (hops : operands.mapM (AsmOperand.value labels) = some (modes.zip vals))
    (hmodes : modes.length = op.params) (hvals : vals.length = op.params)
    (hvalid : fieldsWithModes op modes ∈ validFields op) :
    (AsmStmt.op op operands).assemble labels = some ((fieldsWithModes op modes).word.toInt :: vals) := by
  have hfst : (modes.zip vals).map (·.1) = modes := List.map_fst_zip (by omega)
  have hsnd : (modes.zip vals).map (·.2) = vals := List.map_snd_zip (by omega)
  simp only [AsmStmt.assemble, AsmStmt.expand, hops, hfst, hsnd, wordWithModes_of_mem_validFields hmodes hvalid,
    Option.map_some]

/-- A statement assembles as what it expands to (R81). -/
theorem AsmStmt.assemble_eq_of_expand {labels : List (String × Int)} {st st' : AsmStmt} (h : st.expand = st'.expand) :
    st.assemble labels = st'.assemble labels := by
  unfold AsmStmt.assemble
  rw [h]

theorem AsmStmt.assemble_jmp (labels : List (String × Int)) (t : AsmOperand) : (AsmStmt.jmp t).assemble labels =
    (AsmStmt.op .jumpIfTrue [.immediate (.num 1), t]).assemble labels := assemble_eq_of_expand rfl

theorem AsmStmt.assemble_mov (labels : List (String × Int)) (d s : AsmOperand) : (AsmStmt.mov d s).assemble labels =
    (AsmStmt.op .add [s, .immediate (.num 0), d]).assemble labels := assemble_eq_of_expand rfl

theorem AsmStmt.assemble_nop (labels : List (String × Int)) : AsmStmt.nop.assemble labels =
    (AsmStmt.op .jumpIfFalse [.immediate (.num 1), .immediate (.num 0)]).assemble labels := assemble_eq_of_expand rfl

/-- Settles O53: each pseudo-instruction assembles as the instruction it expands to, whose word is that of valid
fields. -/
theorem pseudoInstructionsExpand : Obligations.PseudoInstructionsExpand := by
  intro labels t d src e v p
  refine ⟨AsmStmt.assemble_jmp labels t, (AsmStmt.assemble_jmp ..).trans ?_, (AsmStmt.assemble_jmp ..).trans ?_,
    AsmStmt.assemble_mov labels d src, (AsmStmt.assemble_mov ..).trans ?_, (AsmStmt.assemble_nop labels).trans ?_⟩
  · exact AsmStmt.assemble_op [.immediate, .immediate] [1, e] rfl rfl rfl (by decide)
  · exact AsmStmt.assemble_op [.immediate, .position] [1, e] rfl rfl rfl (by decide)
  · exact AsmStmt.assemble_op [.immediate, .immediate, .position] [v, 0, p] rfl rfl rfl (by decide)
  · exact AsmStmt.assemble_op [.immediate, .immediate] [1, 0] rfl rfl rfl (by decide)

end Sys2Proof.Machine

/-! Fetch (R91) and the Addressing Resolver (R93 to R95). -/

namespace Sys2Proof

/-! ### The instruction a list of words decodes to -/

/-- A parameter the opcode lacks has digit 0 (R68, R69). -/
theorem eq_position_of_absent {op : Opcode} {k : Nat} {m : Mode} (hm : m ∈ Claims.allowedModes op k)
    (hk : op.params < k) : m = .position := by
  rw [Opcode.params] at hk
  rw [Claims.allowedModes, if_neg (by omega), if_neg (by omega)] at hm
  exact List.mem_singleton.1 hm

/-- The words of an instruction with valid fields: the word of these fields, then the raw parameters the opcode has (R60,
R70). -/
theorem encode_instr {d : Decoded} (hd : d ∈ validFields d.op) (r1 r2 r3 : Word) :
    encode (d.instr r1 r2 r3) = d.word :: [r1, r2, r3].take d.op.params := by
  obtain ⟨op, m1, m2, m3⟩ := d
  obtain ⟨-, h1, h2, h3⟩ := mem_validFields.1 hd
  dsimp only at h1 h2 h3
  cases op with
  | add | mul | lessThan | equals => rfl
  | jumpIfTrue | jumpIfFalse =>
    obtain rfl := eq_position_of_absent h3 (by decide)
    rfl
  | input | output | adjustRelativeBase =>
    obtain rfl := eq_position_of_absent h2 (by decide)
    obtain rfl := eq_position_of_absent h3 (by decide)
    rfl
  | halt =>
    obtain rfl := eq_position_of_absent h1 (by decide)
    obtain rfl := eq_position_of_absent h2 (by decide)
    obtain rfl := eq_position_of_absent h3 (by decide)
    rfl

theorem decode_cons_of_invalid {w : Word} {k : FaultKind} (h : decodeWord w = .error k) (ws : List Word) :
    decode (w :: ws) = .error (.invalid k) := by
  simp only [decode, h]

/-- What decodes starts with a valid word, followed by the raw parameters its opcode has (R60, R66). -/
theorem decode_cons_eq_ok {w : Word} {ws rest : List Word} {i : Instr} (h : decode (w :: ws) = .ok (i, rest)) :
    ∃ d r1 r2 r3, decodeWord w = .ok d ∧ i = d.instr r1 r2 r3 ∧ [r1, r2, r3].take d.op.params ++ rest = ws := by
  simp only [decode] at h
  split at h
  · cases h
  · next d hd =>
    split at h
    · next hp => cases h; exact ⟨d, 0, 0, 0, hd, rfl, by rw [hp]; rfl⟩
    · next r1 ws hp => cases h; exact ⟨d, r1, 0, 0, hd, rfl, by rw [hp]; rfl⟩
    · next r1 r2 ws hp => cases h; exact ⟨d, r1, r2, 0, hd, rfl, by rw [hp]; rfl⟩
    · next r1 r2 r3 ws hp => cases h; exact ⟨d, r1, r2, r3, hd, rfl, by rw [hp]; rfl⟩
    · cases h

/-- A decoded instruction is encoded by the words it was read from (R60, R70). -/
theorem encode_append_of_decode {ws rest : List Word} {i : Instr} (h : decode ws = .ok (i, rest)) :
    encode i ++ rest = ws := by
  cases ws with
  | nil => cases h
  | cons w ws =>
    obtain ⟨d, r1, r2, r3, hd, rfl, rfl⟩ := decode_cons_eq_ok h
    obtain ⟨hvalid, rfl⟩ := decodeWord_eq_ok_iff_word.1 hd
    rw [encode_instr hvalid, List.cons_append]

theorem encode_ne_nil (i : Instr) : encode i ≠ [] := by
  cases i <;> exact List.cons_ne_nil _ _

/-- The word 0, which an address never written reads as, has no opcode (R67, R91). -/
theorem decodeWord_zero : decodeWord 0 = .error .malformedOpcode := decodeWord_eq_malformedOpcode.2 (.inr rfl)

end Sys2Proof

namespace Sys2Proof.Machine

/-! ### Checked addresses -/

theorem checkAddress_of_neg {w : Word} (h : w.toInt < 0) : checkAddress w = .error .undefinedAddress :=
  checkAddress_eq_error.2 ⟨rfl, h⟩

theorem checkAddress_of_nonneg {w : Word} (h : 0 ≤ w.toInt) : checkAddress w = .ok w.toInt.toNat :=
  checkAddress_eq_ok.2 (Int.toNat_of_nonneg h)

/-! ### The fetch -/

/-- The words the fetch reads start with the one at its address (R91). -/
theorem window_eq_cons {m : Memory} {a : Nat} (h : a ≤ Config.maxAddress) : ∃ ws, window m a = m.read a :: ws := by
  have hrange : List.range Config.maxLength = [0, 1, 2, 3] := rfl
  rw [window, hrange, List.filter_cons_of_pos (by simpa using h)]
  exact ⟨_, rfl⟩

theorem fetch_of_neg {s : State} (h : s.ip.toInt < 0) : fetch s = .error .undefinedAddress := by
  simp only [fetch, checkAddress_of_neg h]

/-- An invalid instruction word raises the Decoder's verdict on it (R91). -/
theorem fetch_of_invalid {s : State} {k : FaultKind} (h : 0 ≤ s.ip.toInt)
    (hk : decodeWord (s.mem.read s.ip.toInt.toNat) = .error k) : fetch s = .error k := by
  have ha := checkAddress_of_nonneg h
  obtain ⟨ws, hws⟩ := window_eq_cons (m := s.mem) (checkAddress_le ha)
  simp only [fetch, ha, hws, decode_cons_of_invalid hk]

theorem fetch_eq_ok {s : State} {i : Instr} (h : fetch s = .ok i) :
    ∃ a rest, checkAddress s.ip = .ok a ∧ decode (window s.mem a) = .ok (i, rest) := by
  unfold fetch at h
  split at h
  · cases h
  · next a ha =>
    split at h
    · next rest hd => cases h; exact ⟨a, rest, ha, hd⟩
    · cases h
    · cases h

/-- The instruction fetched has the word at `ip` as its instruction word (R91). -/
theorem head?_encode_of_fetch {s : State} {i : Instr} (h : fetch s = .ok i) :
    (encode i).head? = some (s.mem.read s.ip.toInt.toNat) := by
  obtain ⟨a, rest, ha, hd⟩ := fetch_eq_ok h
  obtain ⟨ws, hws⟩ := window_eq_cons (m := s.mem) (checkAddress_le ha)
  have hip : s.ip.toInt.toNat = a := by rw [← checkAddress_eq_ok.1 ha, Int.toNat_natCast]
  rw [← List.head?_append_of_ne_nil _ (encode_ne_nil i), encode_append_of_decode hd, hws, hip, List.head?_cons]

/-- A fetch that faults is the whole cycle (R90, R175). -/
theorem step_of_fetch_fault {s : State} {k : FaultKind} (hc : s.canCycle = true) (h : fetch s = .error k) :
    step s = .next (Claims.faultedAt s k) :=
  (step_cycle hc).trans (cycle_of_fault h)

/-- Settles O12: the fault is the fetch's (`step_of_fetch_fault`), and what it fetches is encoded by the words it read. -/
theorem fetchFaults : Obligations.FetchFaults := fun _ hc =>
  ⟨fun hneg => step_of_fetch_fault hc (fetch_of_neg hneg),
    fun _ _ => head?_encode_of_fetch,
    fun hpos _ hk => step_of_fetch_fault hc (fetch_of_invalid hpos hk),
    fun hpos hzero => step_of_fetch_fault hc (fetch_of_invalid hpos (hzero ▸ decodeWord_zero))⟩

/-! ### The resolver -/

section EffectiveAddress

variable {rb raw : Word}

theorem effectiveAddress_position_of_neg (h : raw.toInt < 0) :
    effectiveAddress rb ⟨.position, raw⟩ = .error .undefinedAddress := checkAddress_of_neg h

theorem effectiveAddress_position_of_nonneg (h : 0 ≤ raw.toInt) :
    effectiveAddress rb ⟨.position, raw⟩ = .ok raw.toInt.toNat := checkAddress_of_nonneg h

/-- The sum is narrowed before the address is checked (R93, R94). -/
theorem effectiveAddress_relative_of_not_inDomain (h : ¬InDomain (rb.toInt + raw.toInt)) :
    effectiveAddress rb ⟨.relative, raw⟩ = .error .overflow := by
  simp only [effectiveAddress, chk_of_not_inDomain h, error_bind]

theorem effectiveAddress_relative_of_inDomain (h : InDomain (rb.toInt + raw.toInt)) :
    effectiveAddress rb ⟨.relative, raw⟩ = checkAddress (BitVec.ofInt 64 (rb.toInt + raw.toInt)) := by
  simp only [effectiveAddress, chk_of_inDomain h, ok_bind]

theorem effectiveAddress_relative_of_neg (h : InDomain (rb.toInt + raw.toInt)) (hneg : rb.toInt + raw.toInt < 0) :
    effectiveAddress rb ⟨.relative, raw⟩ = .error .undefinedAddress := by
  rw [effectiveAddress_relative_of_inDomain h]
  exact checkAddress_of_neg ((toInt_ofInt h).symm ▸ hneg)

theorem effectiveAddress_relative_of_nonneg (h : InDomain (rb.toInt + raw.toInt)) (hpos : 0 ≤ rb.toInt + raw.toInt) :
    effectiveAddress rb ⟨.relative, raw⟩ = .ok (rb.toInt + raw.toInt).toNat := by
  rw [effectiveAddress_relative_of_inDomain h, checkAddress_of_nonneg ((toInt_ofInt h).symm ▸ hpos), toInt_ofInt h]

end EffectiveAddress

/-- A read operand that is not immediate is the word at its effective address (R93). -/
theorem resolveRead_eq_map {s : State} {o : Operand} (h : o.mode ≠ .immediate) :
    resolveRead s o = (effectiveAddress s.rb o).map s.mem.read := by
  unfold resolveRead
  split
  · next hm => exact absurd hm h
  all_goals cases effectiveAddress s.rb o <;> rfl

theorem resolveRead_of_address {s : State} {o : Operand} {a : Nat} (hm : o.mode ≠ .immediate)
    (h : effectiveAddress s.rb o = .ok a) : resolveRead s o = .ok (s.mem.read a) := by
  rw [resolveRead_eq_map hm, h, Except.map]

theorem resolveRead_of_fault {s : State} {o : Operand} {k : FaultKind} (hm : o.mode ≠ .immediate)
    (h : effectiveAddress s.rb o = .error k) : resolveRead s o = .error k := by
  rw [resolveRead_eq_map hm, h, Except.map]

/-- Settles O14: an operand that is not immediate is read at its effective address, or raises that address's fault. -/
theorem resolverReadForms : Obligations.ResolverReadForms := fun _ _ =>
  have position_ne : Mode.position ≠ .immediate := by decide
  have relative_ne : Mode.relative ≠ .immediate := by decide
  ⟨rfl,
    fun h => resolveRead_of_fault position_ne (effectiveAddress_position_of_neg h),
    fun h => resolveRead_of_address position_ne (effectiveAddress_position_of_nonneg h),
    fun h => resolveRead_of_fault relative_ne (effectiveAddress_relative_of_not_inDomain h),
    fun h hneg => resolveRead_of_fault relative_ne (effectiveAddress_relative_of_neg h hneg),
    fun h hnn => resolveRead_of_address relative_ne (effectiveAddress_relative_of_nonneg h hnn)⟩

/-- Settles O15: the output operand is its effective address, which memory has no part in. -/
theorem resolverWriteForms : Obligations.ResolverWriteForms :=
  ⟨fun _ _ => resolveWrite_congr rfl, fun _ _ =>
    ⟨effectiveAddress_position_of_neg, effectiveAddress_position_of_nonneg, effectiveAddress_relative_of_not_inDomain,
      effectiveAddress_relative_of_neg, effectiveAddress_relative_of_nonneg⟩⟩

end Sys2Proof.Machine

/-! INPUT (R120, R122, R174): the cycle that starves, the cycle that consumes, and the resume after starving, then
`Obligations.StarvedInputIsRunAgain`. -/

namespace Sys2Proof.Machine

/-- The end of the domain is the one bound an increment of `ip` can cross (R97). -/
theorem sequential_of_le {s : State} {n : Int} (hn : 0 ≤ n) (h : s.ip.toInt + n ≤ Config.maxValue) :
    sequential s n = .ok (BitVec.ofInt 64 (s.ip.toInt + n)) :=
  have hip : Config.minValue ≤ s.ip.toInt := (inDomain_toInt s.ip).1
  chk_of_inDomain ⟨by omega, h⟩

/-- With its address and the next `ip` checked, INPUT does what the queue says (R120). -/
theorem dequeueStore_of_checks {s : State} {dst : Operand} {p : Nat} {n : Word} (hp : resolveWrite s dst = .ok p)
    (hn : sequential s 2 = .ok n) :
    (s.queue = [] → dequeueStore dst s = .ok .starve) ∧
    ∀ v r, s.queue = v :: r → dequeueStore dst s = .ok (.proceed (({ s with queue := r }.store p v).goto n)) := by
  simp only [dequeueStore, hp, hn, ok_bind, pure_eq_ok]
  constructor
  · intro hq; rw [hq]
  · intro v r hq; rw [hq]

section InputCycle

variable {s : State} {dst : Operand} {p : Nat} (hc : s.canCycle = true) (hf : fetch s = .ok (.input dst))
  (hp : resolveWrite s dst = .ok p) (hmax : s.ip.toInt + 2 ≤ Config.maxValue)

include hc hf in
theorem step_of_fetch_input : step s = conclude s (dequeueStore dst s) :=
  (step_cycle hc).trans (cycle_of_fetch hf)

include hc hf hp hmax

/-- INPUT on an empty queue starves (R122). -/
theorem step_input_of_queue_nil (hq : s.queue = []) : step s = .next s.starve := by
  have hdo := (dequeueStore_of_checks hp (sequential_of_le (by decide) hmax)).1 hq
  rw [step_of_fetch_input hc hf, hdo, conclude_starve]

/-- INPUT stores and removes the oldest queued value (R120). -/
theorem step_input_of_queue_cons {v : Word} {r : List Word} (hq : s.queue = v :: r) :
    step s = .next ((({ s with queue := r }.store p v).goto (BitVec.ofInt 64 (s.ip.toInt + 2))).setStatus .running) := by
  have hdo := (dequeueStore_of_checks hp (sequential_of_le (by decide) hmax)).2 v r hq
  rw [step_of_fetch_input hc hf, hdo, conclude_proceed]

end InputCycle

/-- The state a resume call is begun in on an instance that starved in `s`, the queue being `q` by then (R171, R174). -/
def State.resumedAfterStarving (s : State) (q : List Word) (input : Option Word) : State :=
  { s.starve with queue := q }.beginResume input

section ResumedAfterStarving

variable (s : State) (q : List Word) (input : Option Word)

theorem State.resumedAfterStarving_eq : s.resumedAfterStarving q input =
    { s.starve with queue := q ++ input.toList, status := .running, inCall := true } := rfl

theorem State.resumedAfterStarving_canCycle : (s.resumedAfterStarving q input).canCycle = true := rfl

/-- The same instruction is fetched again: starving left memory and `ip` alone (R122). -/
theorem State.resumedAfterStarving_fetch : fetch (s.resumedAfterStarving q input) = fetch s := fetch_congr rfl rfl

theorem State.resumedAfterStarving_resolveWrite (dst : Operand) :
    resolveWrite (s.resumedAfterStarving q input) dst = resolveWrite s dst := resolveWrite_congr rfl dst

end ResumedAfterStarving

/-- Settles O46: the resumed instance fetches the same INPUT with the same address and `ip`, so its cycle is one of
`step_input_of_queue_nil` and `step_input_of_queue_cons`. -/
theorem starvedInputIsRunAgain : Obligations.StarvedInputIsRunAgain := by
  intro s dst p hc hf hp hq hmax
  refine ⟨s.starve, rfl, step_input_of_queue_nil hc hf hp hmax hq, fun q input => ?_⟩
  have hc' := s.resumedAfterStarving_canCycle q input
  have hf' := (s.resumedAfterStarving_fetch q input).trans hf
  have hp' := (s.resumedAfterStarving_resolveWrite q input dst).trans hp
  constructor
  · intro hnone
    refine (step_input_of_queue_nil hc' hf' hp' hmax hnone).trans ?_
    rw [s.resumedAfterStarving_eq, hnone, ← hq]
    rfl
  · intro v r hsome
    exact step_input_of_queue_cons hc' hf' hp' hmax hsome

end Sys2Proof.Machine

/-! The suspend/resume contract (R170 to R182): the status a step leaves with what it returns, the host calls served
between resume calls, and a resume call as a whole. -/

namespace Sys2Proof.Machine

/-! ### The transition table (R170) -/

/-- The rows of a cycle in R170's table, with what each returns to the host. -/
theorem step_transitions_of_canCycle {s t : State} (hc : s.canCycle = true) (h : step s = .next t) :
    (∃ i, fetch s = .ok i ∧ i ≠ .halt ∧ (∀ a, i ≠ .output a) ∧ t.status = .running ∧ t.inCall = true ∧
      t.replies = s.replies) ∨
    (∃ a v, fetch s = .ok (.output a) ∧ resolveRead s a = .ok v ∧ t.status = .running ∧ t.inCall = false ∧
      t.replies = s.replies ++ [.signal (.output v)]) ∨
    (∃ dst, fetch s = .ok (.input dst) ∧ s.queue = [] ∧ t.status = .awaitingInput ∧ t.inCall = false ∧
      t.replies = s.replies ++ [.signal .needsInput]) ∨
    (fetch s = .ok .halt ∧ t.status = .halted ∧ t.inCall = false ∧ t.replies = s.replies ++ [.signal .halted]) ∨
    (∃ k, t.status = .faulted k s.ip ∧ t.inCall = false ∧ t.replies = s.replies ++ [.fault k s.ip]) := by
  obtain ⟨-, k, -, -, rfl⟩ | ⟨-, i, hf, -, he⟩ | ⟨hn, -⟩ | ⟨hn, -⟩ := step_cases h
  · exact .inr (.inr (.inr (.inr ⟨k, rfl, rfl, rfl⟩)))
  · cases he with
    | binary hi | input hi | jump hi | pass hi | base hi =>
      refine .inl ⟨i, hf, ?_, ?_, rfl, ((canCycle_iff s).1 hc).1, rfl⟩
      · rintro rfl; cases hi
      · rintro a rfl; cases hi
    | output hi hx => exact .inr (.inl ⟨_, _, hi ▸ hf, hx, rfl, rfl, rfl⟩)
    | starve hi hp hq => exact .inr (.inr (.inl ⟨_, hi ▸ hf, hq, rfl, rfl, rfl⟩))
    | halt hi => exact .inr (.inr (.inr (.inl ⟨hi ▸ hf, rfl, rfl, rfl⟩)))
    | fault k => exact .inr (.inr (.inr (.inr ⟨k, rfl, rfl, rfl⟩)))
  · cases hn.symm.trans hc
  · cases hn.symm.trans hc

/-- The rows of a resume call's start in R170's table. -/
theorem beginResume_transitions (s : State) (input : Option Word) :
    (s.status = .halted ∧ (s.beginResume input).status = .halted ∧
      (s.beginResume input).replies = s.replies ++ [.fault .resumeAfterHalt s.ip]) ∨
    (∃ k f, s.status = .faulted k f ∧ (s.beginResume input).status = .faulted k f ∧
      (s.beginResume input).replies = s.replies ++ [.fault k f]) ∨
    ((s.status = .running ∨ s.status = .awaitingInput) ∧ (s.beginResume input).status = .running ∧
      (s.beginResume input).inCall = true ∧ (s.beginResume input).replies = s.replies) := by
  obtain ⟨hs, h⟩ | ⟨k, f, hs, h⟩ | ⟨hs, h⟩ := beginResume_cases s input <;> rw [h]
  · exact .inl ⟨hs, hs, rfl⟩
  · exact .inr (.inl ⟨k, f, hs, hs, rfl⟩)
  · exact .inr (.inr ⟨(runnable_iff _).1 hs, rfl, rfl, rfl⟩)

/-- No host call but a resume is a row of R170's table. -/
theorem State.serve_status_of_ne_resume (s : State) {c : HostCall} (hc : ∀ input, c ≠ .resume input) :
    (s.serve c).status = s.status := by
  cases c with
  | resume input => exact absurd rfl (hc input)
  | _ => rfl

/-- Settles O41: a step is a cycle (`step_transitions_of_canCycle`), the start of a resume (`beginResume_transitions`),
another host call or nothing. -/
theorem statusTransitions : Obligations.StatusTransitions := by
  intro s t h
  obtain ⟨hc, -⟩ | ⟨hc, -⟩ | ⟨hc, c, cs, hcalls, rfl⟩ | ⟨hc, hcalls, rfl⟩ := step_cases h
  · exact .inl ⟨hc, step_transitions_of_canCycle hc h⟩
  · exact .inl ⟨hc, step_transitions_of_canCycle hc h⟩
  · by_cases hres : ∃ input, c = .resume input
    · obtain ⟨input, rfl⟩ := hres
      exact .inr (.inl ⟨hc, ⟨input, cs, hcalls⟩, beginResume_transitions { s with calls := cs } input⟩)
    · have hne : ∀ input, c ≠ .resume input := not_exists.1 hres
      refine .inr (.inr ⟨hc, fun input cs' hcalls' => ?_, State.serve_status_of_ne_resume _ hne⟩)
      exact hne input (List.cons.inj (hcalls.symm.trans hcalls')).1
  · exact .inr (.inr ⟨hc, fun _ _ hcalls' => (nomatch hcalls.symm.trans hcalls'), rfl⟩)

/-! ### Host calls between resume calls -/

theorem canCycle_of_not_inCall {s : State} (h : s.inCall = false) : s.canCycle = false := by
  simp [State.canCycle, h]

theorem canCycle_of_halted {s : State} (h : s.status = .halted) : s.canCycle = false :=
  Bool.eq_false_iff.2 fun hc => State.status_ne_halted_of_canCycle hc h

theorem beginResume_of_halted {s : State} (h : s.status = .halted) (input : Option Word) :
    s.beginResume input = s.answer (.fault .resumeAfterHalt s.ip) := by
  simp only [State.beginResume, h]

theorem beginResume_of_runnable {s : State} (h : s.status = .running ∨ s.status = .awaitingInput)
    (input : Option Word) :
    s.beginResume input = { s with queue := s.queue ++ input.toList, status := .running, inCall := true } := by
  obtain h | h := h <;> simp only [State.beginResume, h]

theorem State.peek_of_mem {s : State} {a : Int} (h0 : 0 ≤ a) (hmax : a ≤ Config.maxValue) :
    s.peek a = .word (s.mem.read a.toNat) := if_pos ⟨h0, hmax⟩

theorem State.peek_of_not_mem {s : State} {a : Int} (h : a < 0 ∨ Config.maxValue < a) :
    s.peek a = .peekError .undefinedAddress := if_neg (by omega)

/-- Settles O30: no cycle runs in status Halted, so the step serves the resume, which only answers. -/
theorem resumeAfterHaltFaults : Obligations.ResumeAfterHaltFaults := by
  intro s input cs hs hcalls
  have hserve := step_serve (canCycle_of_halted hs) hcalls
  exact hserve.trans (congrArg _ (beginResume_of_halted (s := { s with calls := cs }) hs input))

/-- Settles O32: the step serves the resume, whose start queues the input (`beginResume_of_runnable`). -/
theorem resumeQueuesInputFirst : Obligations.ResumeQueuesInputFirst := by
  intro s input cs hin hs hcalls
  have hserve := step_serve (canCycle_of_not_inCall hin) hcalls
  exact hserve.trans (congrArg _ (beginResume_of_runnable (s := { s with calls := cs }) hs input))

/-- Settles O34: the step serves the peek, which only answers. -/
theorem peekReadsWithoutChange : Obligations.PeekReadsWithoutChange := by
  intro s a cs hin hcalls
  have hserve := step_serve (canCycle_of_not_inCall hin) hcalls
  have hanswer {r : Reply} (hr : s.peek a = r) : step s = .next ({ s with calls := cs }.answer r) := hr ▸ hserve
  exact ⟨fun h0 hmax => hanswer (State.peek_of_mem h0 hmax), fun ha => hanswer (State.peek_of_not_mem ha)⟩

/-! ### A resume call as a whole (R176) -/

/-- How far a resume call made in `s` has come in `u`: it is active and has returned nothing, or it has returned one
result and is over. -/
inductive CallProgress (s u : State) : Prop where
  | active (hc : u.canCycle = true) (hr : u.replies = s.replies)
  | returned (r : Reply) (hin : u.inCall = false) (hr : u.replies = s.replies ++ [r])
      (hres : (∃ g, r = .signal g) ∨ ∃ k f, r = .fault k f)

/-- A cycle of an active call leaves it active or makes it return: each row of the transition table does one of these. -/
theorem CallProgress.of_cycle {s u t : State} (hc : u.canCycle = true) (hr : u.replies = s.replies)
    (h : step u = .next t) : CallProgress s t := by
  obtain ⟨_, -, -, -, hs, hin, hr'⟩ | ⟨_, _, -, -, -, hin, hr'⟩ | ⟨_, -, -, -, hin, hr'⟩ | ⟨-, -, hin, hr'⟩ |
    ⟨_, -, hin, hr'⟩ := step_transitions_of_canCycle hc h <;> rw [hr] at hr'
  · exact .active ((canCycle_iff t).2 ⟨hin, by rw [hs]; rfl⟩) hr'
  · exact .returned _ hin hr' (.inl ⟨_, rfl⟩)
  · exact .returned _ hin hr' (.inl ⟨_, rfl⟩)
  · exact .returned _ hin hr' (.inl ⟨_, rfl⟩)
  · exact .returned _ hin hr' (.inr ⟨_, _, rfl⟩)

/-- A resume returns at once on a terminal instance and is active on another (R171, R172, R175). -/
theorem CallProgress.of_beginResume {s : State} (hin : s.inCall = false) (input : Option Word) :
    CallProgress s (s.beginResume input) := by
  obtain ⟨-, h⟩ | ⟨k, f, -, h⟩ | ⟨-, h⟩ := beginResume_cases s input <;> rw [h]
  · exact .returned _ hin rfl (.inr ⟨_, _, rfl⟩)
  · exact .returned _ hin rfl (.inr ⟨_, _, rfl⟩)
  · exact .active rfl rfl

theorem runCall_of_not_inCall {s : State} (h : s.inCall = false) (fuel : Nat) : runCall fuel s = some s := by
  cases fuel <;> simp [runCall, h]

theorem runCall_zero_of_inCall {s : State} (h : s.inCall = true) : runCall 0 s = none := by
  simp [runCall, h]

theorem runCall_succ_of_step {s t : State} (hin : s.inCall = true) (h : step s = .next t) (fuel : Nat) :
    runCall (fuel + 1) s = runCall fuel t := by
  simp [runCall, hin, h]

/-- A call that is run until it is over has returned one result. -/
theorem CallProgress.runCall_returned {s u t : State} {fuel : Nat} (h : CallProgress s u)
    (hrun : runCall fuel u = some t) :
    ∃ r, t.inCall = false ∧ t.replies = s.replies ++ [r] ∧ ((∃ g, r = .signal g) ∨ ∃ k f, r = .fault k f) := by
  induction fuel generalizing u with
  | zero =>
    cases h with
    | active hc hr => simp [runCall_zero_of_inCall ((canCycle_iff u).1 hc).1] at hrun
    | returned r hin hr hres =>
      cases (runCall_of_not_inCall hin 0).symm.trans hrun
      exact ⟨r, hin, hr, hres⟩
  | succ fuel ih =>
    cases h with
    | active hc hr =>
      obtain ⟨v, hv⟩ := cycle_next u
      rw [← step_cycle hc] at hv
      rw [runCall_succ_of_step ((canCycle_iff u).1 hc).1 hv] at hrun
      exact ih (.of_cycle hc hr hv) hrun
    | returned r hin hr hres =>
      cases (runCall_of_not_inCall hin _).symm.trans hrun
      exact ⟨r, hin, hr, hres⟩

/-- What `resume` gives is the last reply of the instance its call ends in. -/
theorem State.resume_eq_some {fuel : Nat} {input : Option Word} {s t : State} {r : Reply}
    (h : s.resume fuel input = some (r, t)) :
    runCall fuel (s.beginResume input) = some t ∧ t.replies.getLast? = some r := by
  unfold State.resume at h
  split at h
  · cases h
  · next u hrun =>
    obtain ⟨r', hlast, heq⟩ := Option.map_eq_some_iff.1 h
    cases heq
    exact ⟨hrun, hlast⟩

/-- Settles O36: a call makes progress from its start to its return (`CallProgress.runCall_returned`), and the result given
is the one reply added. -/
theorem oneResultPerCall : Obligations.OneResultPerCall := by
  refine ⟨fun fuel input s t r hin h => ?_, fun s hin hcalls => step_idle (canCycle_of_not_inCall hin) hcalls⟩
  obtain ⟨hrun, hlast⟩ := State.resume_eq_some h
  obtain ⟨r', hin', hr, hres⟩ := (CallProgress.of_beginResume hin input).runCall_returned hrun
  rw [hr, List.getLast?_concat] at hlast
  cases hlast
  exact ⟨hr, hin', hres⟩

end Sys2Proof.Machine

/-! Construction and reset (R178, R230): the accepted programs, the memory they are placed in, then
`Obligations.ConstructGivesResetState`. -/

namespace Sys2Proof.Machine

/-- An accepted program gives the reset state with the program in memory (R178). -/
theorem State.construct_of_inDomain {program : List Int} (hdom : ∀ v ∈ program, InDomain v)
    (hlen : program.length ≤ Config.maxAddress + 1) :
    State.construct program = some { State.reset with mem := Memory.load 0 (program.map (BitVec.ofInt 64)) } :=
  if_pos ⟨hdom, hlen⟩

theorem Memory.read_load_zero_of_lt {vs : List Word} {i : Nat} (h : i < vs.length) :
    (Memory.load 0 vs).read i = vs[i] := by
  have hread := Memory.read_load 0 vs i
  rwa [Nat.zero_add, List.getD_eq_getElem _ _ h] at hread

theorem Memory.read_load_zero_of_le {vs : List Word} {a : Nat} (h : vs.length ≤ a) :
    (Memory.load 0 vs).read a = Config.unwritten := by
  have hread := Memory.read_load 0 vs a
  rwa [Nat.zero_add, List.getD_eq_default _ _ h] at hread

/-- Settles O1: memory by what a load holds (`Memory.read_load`), each element kept exactly by the domain premise
(`toInt_ofInt`), and every register as `State.reset` has it. -/
theorem constructGivesResetState : Obligations.ConstructGivesResetState := by
  intro program hdom hlen
  refine ⟨_, State.construct_of_inDomain hdom hlen, fun i h => ?element, fun a ha => ?beyond,
    rfl, rfl, rfl, rfl, rfl⟩
  case element =>
    rw [Memory.read_load_zero_of_lt (by rwa [List.length_map]), List.getElem_map]
    exact toInt_ofInt (hdom _ (List.getElem_mem h))
  case beyond => exact Memory.read_load_zero_of_le (by rwa [List.length_map])

end Sys2Proof.Machine

/-! The instructions as words (R60, R68 to R70): decoding reads back every encoding, and nothing else decodes. -/

namespace Sys2Proof

open Sys2Proof.Claims

/-! ### Valid fields of a well-formed instruction -/

theorem Operand.writable_iff {o : Operand} : o.writable = true ↔ o.mode ≠ .immediate := bne_iff_ne

theorem mem_allowedModes_of_input {op : Opcode} {k : Nat} (m : Mode) (hk : k ≤ op.nin) : m ∈ allowedModes op k := by
  rw [allowedModes, if_pos hk]
  cases m <;> decide

/-- The output parameter, which is the last, takes every mode but immediate (R68, R69). -/
theorem mem_allowedModes_of_output {op : Opcode} {m : Mode} (hout : op.nout = 1) :
    m ∈ allowedModes op op.params ↔ m ≠ .immediate := by
  rw [allowedModes, Opcode.params, if_neg (by omega), if_pos le_rfl]
  cases m <;> decide

theorem position_mem_allowedModes (op : Opcode) (k : Nat) : .position ∈ allowedModes op k := by
  unfold allowedModes
  split_ifs <;> decide

/-- What valid fields and raw parameters stand for is well-formed: its output operand has an allowed mode (R68). -/
theorem wf_instr {d : Decoded} (hd : d ∈ validFields d.op) (r1 r2 r3 : Word) : (d.instr r1 r2 r3).wf = true := by
  obtain ⟨op, m1, m2, m3⟩ := d
  obtain ⟨-, h1, -, h3⟩ := mem_validFields.1 hd
  cases op with
  | add | mul | lessThan | equals =>
    exact Operand.writable_iff.2 ((mem_allowedModes_of_output rfl).1 h3)
  | input => exact Operand.writable_iff.2 ((mem_allowedModes_of_output rfl).1 h1)
  | output | jumpIfTrue | jumpIfFalse | adjustRelativeBase | halt => rfl

/-- Every well-formed instruction is what valid fields and raw parameters stand for (R60, R69). -/
theorem exists_instr_of_wf {i : Instr} (hi : i.wf = true) :
    ∃ m1 m2 m3 r1 r2 r3, ⟨i.op, m1, m2, m3⟩ ∈ validFields i.op ∧ Decoded.instr ⟨i.op, m1, m2, m3⟩ r1 r2 r3 = i := by
  have input {op : Opcode} {k : Nat} (m : Mode) (hk : Nat.ble k op.nin = true) :=
    mem_allowedModes_of_input m (Nat.le_of_ble_eq_true hk)
  have output {op : Opcode} {o : Operand} (ho : o.writable = true) (hout : op.nout = 1) :=
    (mem_allowedModes_of_output hout).2 (Operand.writable_iff.1 ho)
  have absent := position_mem_allowedModes
  cases i with
  | add a b dst | mul a b dst | lessThan a b dst | equals a b dst =>
    refine ⟨a.mode, b.mode, dst.mode, a.raw, b.raw, dst.raw, ?_, rfl⟩
    exact mem_validFields.2 ⟨rfl, input _ rfl, input _ rfl, output hi rfl⟩
  | jumpIfTrue a b | jumpIfFalse a b =>
    refine ⟨a.mode, b.mode, .position, a.raw, b.raw, 0, ?_, rfl⟩
    exact mem_validFields.2 ⟨rfl, input _ rfl, input _ rfl, absent _ _⟩
  | input dst =>
    refine ⟨dst.mode, .position, .position, dst.raw, 0, 0, ?_, rfl⟩
    exact mem_validFields.2 ⟨rfl, output hi rfl, absent _ _, absent _ _⟩
  | output a | adjustRelativeBase a =>
    refine ⟨a.mode, .position, .position, a.raw, 0, 0, ?_, rfl⟩
    exact mem_validFields.2 ⟨rfl, input _ rfl, absent _ _, absent _ _⟩
  | halt =>
    refine ⟨.position, .position, .position, 0, 0, 0, ?_, rfl⟩
    exact mem_validFields.2 ⟨rfl, absent _ _, absent _ _, absent _ _⟩

/-! ### Both directions of the encoding -/

/-- A valid word with its opcode's raw parameters behind it decodes to what they stand for (R60, R66). -/
theorem decode_word_append {d : Decoded} (hd : d ∈ validFields d.op) (r1 r2 r3 : Word) (rest : List Word) :
    decode (d.word :: ([r1, r2, r3].take d.op.params ++ rest)) = .ok (d.instr r1 r2 r3, rest) := by
  simp only [decode, decodeWord_eq_ok_iff_word.2 ⟨hd, rfl⟩]
  obtain ⟨op, m1, m2, m3⟩ := d
  cases op <;> rfl

theorem decode_encode_append {i : Instr} (hi : i.wf = true) (rest : List Word) :
    decode (encode i ++ rest) = .ok (i, rest) := by
  obtain ⟨m1, m2, m3, r1, r2, r3, hd, hinstr⟩ := exists_instr_of_wf hi
  have hdecode := decode_word_append hd r1 r2 r3 rest
  rwa [← List.cons_append, ← encode_instr hd, hinstr] at hdecode

/-- Settles O4: a well-formed instruction is a valid word with raw parameters, which `decode_word_append` reads back. -/
theorem decodeReadsBackEncode : Obligations.DecodeReadsBackEncode := fun _ rest hi => decode_encode_append hi rest

theorem wf_of_decode {ws rest : List Word} {i : Instr} (h : decode ws = .ok (i, rest)) : i.wf = true := by
  cases ws with
  | nil => cases h
  | cons w ws =>
    obtain ⟨d, r1, r2, r3, hd, rfl, -⟩ := decode_cons_eq_ok h
    exact wf_instr (decodeWord_eq_ok_iff_word.1 hd).1 r1 r2 r3

/-- Settles O5: what decodes has valid fields (`wf_of_decode`), and it is encoded by the words read. -/
theorem decodedInstructionIsItsWords : Obligations.DecodedInstructionIsItsWords := fun _ _ _ h =>
  ⟨wf_of_decode h, encode_append_of_decode h⟩

/-- Settles O10: the ten words are encodings, so `decode_encode_append` reads them; the last two are invalid. -/
theorem specWordsDecode : Obligations.SpecWordsDecode :=
  have reads (i : Instr) (hi : i.wf = true) : decode (encode i ++ []) = .ok (i, []) := decode_encode_append hi []
  ⟨reads (.mul ⟨.position, 4⟩ ⟨.immediate, 3⟩ ⟨.position, 4⟩) rfl,
    reads (.add ⟨.immediate, 2⟩ ⟨.immediate, 3⟩ ⟨.relative, -4⟩) rfl,
    reads (.input ⟨.relative, -3⟩) rfl,
    reads (.output ⟨.immediate, 7⟩) rfl,
    reads (.jumpIfTrue ⟨.immediate, 1⟩ ⟨.immediate, 9⟩) rfl,
    reads (.jumpIfFalse ⟨.position, 101⟩ ⟨.immediate, 0⟩) rfl,
    reads (.lessThan ⟨.immediate, -5⟩ ⟨.immediate, 3⟩ ⟨.position, 20⟩) rfl,
    reads (.equals ⟨.position, 100⟩ ⟨.immediate, 16⟩ ⟨.position, 101⟩) rfl,
    reads (.adjustRelativeBase ⟨.relative, 3⟩) rfl,
    reads .halt rfl, rfl, rfl⟩

theorem length_encode (i : Instr) : (encode i).length = 1 + i.op.params := by cases i <;> rfl

theorem Opcode.params_lt (op : Opcode) : op.params < Config.maxLength := by cases op <;> decide

theorem length_encode_le (i : Instr) : (encode i).length ≤ Config.maxLength := by
  rw [length_encode, Nat.add_comm]
  exact i.op.params_lt

/-- A valid word whose raw parameters are not all there is no instruction (R92). -/
theorem decode_cons_of_truncated {w : Word} {d : Decoded} {ws : List Word} (hd : decodeWord w = .ok d)
    (hlen : ws.length < d.op.params) : decode (w :: ws) = .error .truncated := by
  simp only [decode, hd]
  split
  case h_5 => rfl
  all_goals
    next hp => exact absurd hlen (by simp [hp])

end Sys2Proof

/-! The instruction fetched from memory (R91, R92) and the disassembly (R82). -/

namespace Sys2Proof.Machine

/-! ### The words read -/

/-- The fetch reads as many words as the address domain still has, at most four (R91, R92). -/
theorem window_eq_map (m : Memory) (a : Nat) : window m a =
    (List.range (min Config.maxLength (Config.maxAddress + 1 - a))).map (fun k => m.read (a + k)) := by
  have hfilter : (List.range Config.maxLength).filter (fun k => a + k ≤ Config.maxAddress) =
      List.range (min Config.maxLength (Config.maxAddress + 1 - a)) := by
    generalize Config.maxLength = n
    induction n with
    | zero => simp
    | succ n ih =>
      rw [List.range_succ, List.filter_append, ih]
      by_cases h : a + n ≤ Config.maxAddress
      · rw [show min (n + 1) (Config.maxAddress + 1 - a) = min n (Config.maxAddress + 1 - a) + 1 by omega,
          List.range_succ, show min n (Config.maxAddress + 1 - a) = n by omega]
        simp [h]
      · rw [show min (n + 1) (Config.maxAddress + 1 - a) = min n (Config.maxAddress + 1 - a) by omega]
        simp [h]
  rw [window, hfilter]

/-- Words read from `a` on start with the list that stands there. -/
theorem exists_map_read_eq_append {m : Memory} {a n : Nat} {ws : List Word} (hlen : ws.length ≤ n)
    (hws : ∀ (k : Nat) (h : k < ws.length), m.read (a + k) = ws[k]) :
    ∃ rest, (List.range n).map (fun k => m.read (a + k)) = ws ++ rest := by
  have htake : ((List.range n).map (fun k => m.read (a + k))).take ws.length = ws :=
    List.ext_getElem (by simpa using hlen) fun k _ hk => by simpa using hws k hk
  exact ⟨_, (List.take_append_drop ws.length _).symm.trans (by rw [htake])⟩

/-! ### What the fetch answers -/

/-- The instruction whose encoding stands at `ip` is fetched (R91, R92). -/
theorem fetch_of_encode {s : State} {i : Instr} (hi : i.wf = true) (hip : 0 ≤ s.ip.toInt)
    (hlast : s.ip.toInt.toNat + (encode i).length ≤ Config.maxAddress + 1)
    (hread : ∀ (k : Nat) (h : k < (encode i).length), s.mem.read (s.ip.toInt.toNat + k) = (encode i)[k]) :
    fetch s = .ok i := by
  have hlen := length_encode_le i
  obtain ⟨rest, hrest⟩ := exists_map_read_eq_append (n := min Config.maxLength
    (Config.maxAddress + 1 - s.ip.toInt.toNat)) (by omega) hread
  simp only [fetch, checkAddress_of_nonneg hip, window_eq_map, hrest, decode_encode_append hi]

theorem step_of_encode {s : State} {i : Instr} (hc : s.canCycle = true) (hi : i.wf = true) (hip : 0 ≤ s.ip.toInt)
    (hlast : s.ip.toInt.toNat + (encode i).length ≤ Config.maxAddress + 1)
    (hread : ∀ (k : Nat) (h : k < (encode i).length), s.mem.read (s.ip.toInt.toNat + k) = (encode i)[k]) :
    step s = exec i s := by
  rw [step_cycle hc, cycle_of_fetch (fetch_of_encode hi hip hlast hread)]

/-- Settles O11: the last of the words lies in the address domain, so `fetch_of_encode` applies. -/
theorem stepRunsDecodedInstruction : Obligations.StepRunsDecodedInstruction := by
  intro s i hc hi hip hread
  have hpos : 0 < (encode i).length := List.length_pos_of_ne_nil (encode_ne_nil i)
  have hlast : s.ip.toInt + ((encode i).length - 1 : Nat) ≤ 9223372036854775807 :=
    (hread ((encode i).length - 1) (by omega)).1
  refine step_of_encode hc hi hip ?_ fun k hk => (hread k hk).2
  show s.ip.toInt.toNat + (encode i).length ≤ 9223372036854775807 + 1
  omega

/-- A valid word whose parameters run beyond `MAX` raises `Overflow` (R92). -/
theorem fetch_of_truncated {s : State} {d : Decoded} (hip : 0 ≤ s.ip.toInt)
    (hd : decodeWord (s.mem.read s.ip.toInt.toNat) = .ok d)
    (hmax : Config.maxAddress < s.ip.toInt.toNat + d.op.params) : fetch s = .error .overflow := by
  have ha := checkAddress_of_nonneg hip
  obtain ⟨ws, hws⟩ := window_eq_cons (m := s.mem) (checkAddress_le ha)
  have hlen : ws.length + 1 = min Config.maxLength (Config.maxAddress + 1 - s.ip.toInt.toNat) := by
    rw [← List.length_cons, ← hws, window_eq_map, List.length_map, List.length_range]
  have hparams := d.op.params_lt
  have htrunc : ws.length < d.op.params := by omega
  simp only [fetch, ha, hws, decode_cons_of_truncated hd htrunc]

/-- Settles O13: the fault is the fetch's. -/
theorem parameterBeyondMaxOverflows : Obligations.ParameterBeyondMaxOverflows := by
  intro s d hc hip hd hmax
  refine step_of_fetch_fault hc (fetch_of_truncated hip hd ?_)
  change (9223372036854775807 : Int) < _ at hmax
  show 9223372036854775807 < s.ip.toInt.toNat + (d.op.nin + d.op.nout)
  omega

/-! ### Disassembly -/

/-- Settles O54: the words read at `a` start with the encoding, or with the invalid word. -/
theorem disassemblyFindsInstruction : Obligations.DisassemblyFindsInstruction := by
  refine ⟨fun m a i hi _ hread => ?_, fun m a k _ hk => ?_⟩
  · obtain ⟨rest, hrest⟩ := exists_map_read_eq_append (length_encode_le i) hread
    simp only [disassemble, hrest, decode_encode_append hi]
  · obtain ⟨rest, hrest⟩ := exists_map_read_eq_append (m := m) (a := a) (n := Config.maxLength) (ws := [m.read a])
      (Nat.le_of_ble_eq_true rfl) (by simp)
    simp only [disassemble, hrest, List.singleton_append, decode_cons_of_invalid hk, Listing.text]

end Sys2Proof.Machine

/-! What each instruction answers when its operands resolve (R110 to R160), and which fault it raises when one does not
(R98). -/

namespace Sys2Proof.Machine

open Sys2Proof.Claims

/-! ### The checks after the operands (R97) -/

theorem sequential_of_gt {s : State} {n : Int} (h : Config.maxValue < s.ip.toInt + n) :
    sequential s n = .error .overflow :=
  chk_of_not_inDomain fun hdom => absurd hdom.2 (by omega)

/-- Taking a fault changes exactly what `faultedAt` says (R175, R207). -/
theorem raise_eq_faultedAt (s : State) (k : FaultKind) : s.raise k = faultedAt s k := rfl

theorem conclude_of_error {s : State} {e : Except FaultKind CycleEnd} {k : FaultKind} (h : e = .error k) :
    conclude s e = .next (faultedAt s k) := by
  rw [h, conclude_error, raise_eq_faultedAt]

/-! ### ADD, MUL, LESS_THAN, EQUALS -/

section BinaryStore

variable {f : Int → Int → Int} {s : State} {a b dst : Operand} {x y : Word} {p : Nat} {k : FaultKind}

theorem binaryStore_of_fault_first (hx : resolveRead s a = .error k) : binaryStore f a b dst s = .error k := by
  simp only [binaryStore, hx, error_bind]

variable (hx : resolveRead s a = .ok x)
include hx

theorem binaryStore_of_fault_second (hy : resolveRead s b = .error k) : binaryStore f a b dst s = .error k := by
  simp only [binaryStore, hx, hy, ok_bind, error_bind]

variable (hy : resolveRead s b = .ok y)
include hy

theorem binaryStore_of_fault_output (hp : resolveWrite s dst = .error k) : binaryStore f a b dst s = .error k := by
  simp only [binaryStore, hx, hy, hp, ok_bind, error_bind]

variable (hp : resolveWrite s dst = .ok p)
include hp

theorem binaryStore_of_inDomain (hr : InDomain (f x.toInt y.toInt)) (hn : s.ip.toInt + 4 ≤ Config.maxValue) :
    binaryStore f a b dst s = .ok (.proceed ((s.store p (BitVec.ofInt 64 (f x.toInt y.toInt))).goto
      (BitVec.ofInt 64 (s.ip.toInt + 4)))) := by
  simp only [binaryStore, hx, hy, hp, chk_of_inDomain hr, sequential_of_le (by decide) hn, ok_bind, pure_eq_ok]

/-- A result out of the domain and a next `ip` out of it raise the same fault (R13, R97). -/
theorem binaryStore_of_overflow (h : ¬InDomain (f x.toInt y.toInt) ∨ Config.maxValue < s.ip.toInt + 4) :
    binaryStore f a b dst s = .error .overflow := by
  simp only [binaryStore, hx, hy, hp, ok_bind]
  by_cases hr : InDomain (f x.toInt y.toInt)
  · rw [chk_of_inDomain hr, ok_bind, sequential_of_gt (h.resolve_left (not_not_intro hr)), error_bind]
  · rw [chk_of_not_inDomain hr, error_bind]

theorem conclude_binaryStore (hr : InDomain (f x.toInt y.toInt)) (hn : s.ip.toInt + 4 ≤ Config.maxValue) :
    conclude s (binaryStore f a b dst s) = .next { s with
      mem := s.mem.write p (BitVec.ofInt 64 (f x.toInt y.toInt))
      ip := BitVec.ofInt 64 (s.ip.toInt + 4), status := .running } := by
  rw [binaryStore_of_inDomain hx hy hp hr hn, conclude_proceed]
  rfl

end BinaryStore

/-- Settles O16: ADD is `binaryStore` of the sum. -/
theorem addWritesExactSum : Obligations.AddWritesExactSum := fun _ _ _ _ _ _ _ hx hy hp =>
  ⟨conclude_binaryStore hx hy hp, fun h => conclude_of_error (binaryStore_of_overflow hx hy hp h)⟩

/-- Settles O17: MUL is `binaryStore` of the product. -/
theorem mulWritesExactProduct : Obligations.MulWritesExactProduct := fun _ _ _ _ _ _ _ hx hy hp =>
  ⟨conclude_binaryStore hx hy hp, fun h => conclude_of_error (binaryStore_of_overflow hx hy hp h)⟩

theorem inDomain_bool01 (c : Bool) : InDomain (bool01 c) := by cases c <;> decide

theorem ofInt_bool01 (c : Bool) : BitVec.ofInt 64 (bool01 c) = if c then 1 else 0 := by cases c <;> rfl

theorem ofInt_lessThanResult (x y : Word) :
    BitVec.ofInt 64 (lessThanResult x.toInt y.toInt) = if x.toInt < y.toInt then 1 else 0 := by
  simp only [lessThanResult, ofInt_bool01, decide_eq_true_eq]

/-- Words are equal exactly when their values are (R20). -/
theorem ofInt_equalsResult (x y : Word) :
    BitVec.ofInt 64 (equalsResult x.toInt y.toInt) = if x = y then 1 else 0 := by
  simp only [equalsResult, ofInt_bool01, decide_eq_true_eq, BitVec.toInt_inj]

/-- Settles O18: LESS_THAN is `binaryStore` of the comparison's 1 or 0, which lies in the domain. -/
theorem lessThanWritesSignedComparison : Obligations.LessThanWritesSignedComparison := by
  intro s a b dst x y p hx hy hp
  refine ⟨fun hn => ?_, fun h => conclude_of_error (binaryStore_of_overflow hx hy hp (.inr h))⟩
  rw [← ofInt_lessThanResult]
  exact conclude_binaryStore hx hy hp (inDomain_bool01 _) hn

/-- Settles O19: EQUALS is `binaryStore` of the comparison's 1 or 0, which lies in the domain. -/
theorem equalsWritesEquality : Obligations.EqualsWritesEquality := by
  intro s a b dst x y p hx hy hp
  refine ⟨fun hn => ?_, fun h => conclude_of_error (binaryStore_of_overflow hx hy hp (.inr h))⟩
  rw [← ofInt_equalsResult]
  exact conclude_binaryStore hx hy hp (inDomain_bool01 _) hn

/-! ### INPUT and OUTPUT -/

theorem dequeueStore_of_fault {s : State} {dst : Operand} {k : FaultKind} (hp : resolveWrite s dst = .error k) :
    dequeueStore dst s = .error k := by
  simp only [dequeueStore, hp, error_bind]

/-- The next `ip` is checked before the queue is looked at (R98). -/
theorem dequeueStore_of_overflow {s : State} {dst : Operand} {p : Nat} (hp : resolveWrite s dst = .ok p)
    (h : Config.maxValue < s.ip.toInt + 2) : dequeueStore dst s = .error .overflow := by
  simp only [dequeueStore, hp, sequential_of_gt h, ok_bind, error_bind]

/-- Settles O20: INPUT is what `dequeueStore` does with the queue once its checks are made. -/
theorem inputConsumesOldest : Obligations.InputConsumesOldest := by
  intro s dst p hp
  have checked (hn : s.ip.toInt + 2 ≤ Config.maxValue) := dequeueStore_of_checks hp (sequential_of_le (by decide) hn)
  refine ⟨fun v q hq hn => ?_, fun hq hn => ?_, fun h => conclude_of_error (dequeueStore_of_overflow hp h)⟩
  · exact congrArg (conclude s) ((checked hn).2 v q hq)
  · exact congrArg (conclude s) ((checked hn).1 hq)

section EmitOperand

variable {s : State} {a : Operand} {x : Word} {k : FaultKind}

theorem emitOperand_of_fault (hx : resolveRead s a = .error k) : emitOperand a s = .error k := by
  simp only [emitOperand, hx, error_bind]

theorem emitOperand_of_le (hx : resolveRead s a = .ok x) (hn : s.ip.toInt + 2 ≤ Config.maxValue) :
    emitOperand a s = .ok (.emit x (s.goto (BitVec.ofInt 64 (s.ip.toInt + 2)))) := by
  simp only [emitOperand, hx, sequential_of_le (by decide) hn, ok_bind, pure_eq_ok]

theorem emitOperand_of_overflow (hx : resolveRead s a = .ok x) (h : Config.maxValue < s.ip.toInt + 2) :
    emitOperand a s = .error .overflow := by
  simp only [emitOperand, hx, sequential_of_gt h, ok_bind, error_bind]

end EmitOperand

/-- Settles O21: OUTPUT is `emitOperand`. -/
theorem outputReturnsOperand : Obligations.OutputReturnsOperand := fun s _ _ hx =>
  ⟨fun hn => congrArg (conclude s) (emitOperand_of_le hx hn), fun h => conclude_of_error (emitOperand_of_overflow hx h)⟩

/-! ### The jumps -/

section ConditionalJump

variable {taken : Int → Bool} {s : State} {a b : Operand} {x y : Word} {k : FaultKind}

theorem conditionalJump_of_fault_first (hx : resolveRead s a = .error k) :
    conditionalJump taken a b s = .error k := by
  simp only [conditionalJump, hx, error_bind]

variable (hx : resolveRead s a = .ok x)
include hx

theorem conditionalJump_of_fault_second (hy : resolveRead s b = .error k) :
    conditionalJump taken a b s = .error k := by
  simp only [conditionalJump, hx, hy, ok_bind, error_bind]

variable (hy : resolveRead s b = .ok y)
include hy

theorem conclude_jump_taken (ht : taken x.toInt = true) :
    conclude s (conditionalJump taken a b s) = .next { s with ip := y, status := .running } := by
  simp only [conditionalJump, hx, hy, ht, ok_bind, if_true, pure_eq_ok]
  rfl

theorem conclude_jump_passed (ht : taken x.toInt = false) (hn : s.ip.toInt + 3 ≤ Config.maxValue) :
    conclude s (conditionalJump taken a b s) =
      .next { s with ip := BitVec.ofInt 64 (s.ip.toInt + 3), status := .running } := by
  simp only [conditionalJump, hx, hy, ht, sequential_of_le (show (0 : Int) ≤ 3 by decide) hn, ok_bind,
    Bool.false_eq_true, if_false, pure_eq_ok]
  rfl

theorem conclude_jump_overflow (ht : taken x.toInt = false) (h : Config.maxValue < s.ip.toInt + 3) :
    conclude s (conditionalJump taken a b s) = .next (faultedAt s .overflow) := by
  refine conclude_of_error ?_
  simp only [conditionalJump, hx, hy, ht, sequential_of_gt h, ok_bind, error_bind, Bool.false_eq_true, if_false]

end ConditionalJump

/-- Only the word 0 has the value 0 (R130). -/
theorem countsTrue_iff {x : Word} : countsTrue x.toInt = true ↔ x ≠ 0 := by
  rw [countsTrue, decide_eq_true_iff, Ne, ← BitVec.toInt_zero, BitVec.toInt_inj]
  rfl

theorem countsFalse_eq_not (v : Int) : countsFalse v = !countsTrue v := by
  simp [countsFalse, countsTrue]

theorem countsTrue_zero : countsTrue (0 : Word).toInt = false := rfl

theorem countsFalse_zero : countsFalse (0 : Word).toInt = true := rfl

theorem countsFalse_of_ne {x : Word} (hx : x ≠ 0) : countsFalse x.toInt = false := by
  rw [countsFalse_eq_not, countsTrue_iff.2 hx, Bool.not_true]

/-- Settles O22: JUMP_IF_TRUE is `conditionalJump` on a condition other than 0. -/
theorem jumpIfTrueJumps : Obligations.JumpIfTrueJumps := by
  intro s a b x y hx hy
  refine ⟨fun hne => conclude_jump_taken hx hy (countsTrue_iff.2 hne), ?_, ?_⟩
  · rintro rfl hn
    exact conclude_jump_passed hx hy countsTrue_zero hn
  · rintro rfl h
    exact conclude_jump_overflow hx hy countsTrue_zero h

/-- Settles O23: JUMP_IF_FALSE is `conditionalJump` on the condition 0. -/
theorem jumpIfFalseJumps : Obligations.JumpIfFalseJumps := by
  intro s a b x y hx hy
  refine ⟨?_, fun hne hn => conclude_jump_passed hx hy (countsFalse_of_ne hne) hn,
    fun hne h => conclude_jump_overflow hx hy (countsFalse_of_ne hne) h⟩
  rintro rfl
  exact conclude_jump_taken hx hy countsFalse_zero

/-! ### ADJUST_RELATIVE_BASE and HALT -/

section AdjustBase

variable {s : State} {a : Operand} {x : Word} {k : FaultKind}

theorem adjustBase_of_fault (hx : resolveRead s a = .error k) : adjustBase a s = .error k := by
  simp only [adjustBase, hx, error_bind]

theorem adjustBase_of_inDomain (hx : resolveRead s a = .ok x) (hr : InDomain (s.rb.toInt + x.toInt))
    (hn : s.ip.toInt + 2 ≤ Config.maxValue) :
    adjustBase a s = .ok (.proceed ((s.setBase (BitVec.ofInt 64 (s.rb.toInt + x.toInt))).goto
      (BitVec.ofInt 64 (s.ip.toInt + 2)))) := by
  simp only [adjustBase, hx, chk_of_inDomain hr, sequential_of_le (show (0 : Int) ≤ 2 by decide) hn, ok_bind,
    pure_eq_ok]

theorem adjustBase_of_overflow (hx : resolveRead s a = .ok x)
    (h : ¬InDomain (s.rb.toInt + x.toInt) ∨ Config.maxValue < s.ip.toInt + 2) :
    adjustBase a s = .error .overflow := by
  simp only [adjustBase, hx, ok_bind]
  by_cases hr : InDomain (s.rb.toInt + x.toInt)
  · rw [chk_of_inDomain hr, ok_bind, sequential_of_gt (h.resolve_left (not_not_intro hr)), error_bind]
  · rw [chk_of_not_inDomain hr, error_bind]

end AdjustBase

/-- Settles O24: ADJUST_RELATIVE_BASE is `adjustBase`. -/
theorem adjustRelativeBaseAdds : Obligations.AdjustRelativeBaseAdds := fun s _ _ hx =>
  ⟨fun hr hn => congrArg (conclude s) (adjustBase_of_inDomain hx hr hn),
    fun h => conclude_of_error (adjustBase_of_overflow hx h)⟩

/-- Settles O25: HALT has no check to fail and nothing to resolve. -/
theorem haltStopsInPlace : Obligations.HaltStopsInPlace := fun s => conclude_halt s _

/-! ### A fault of an operand (R98) -/

/-- Settles O26: each instruction resolves its operands in parameter order, and the first fault is the cycle's. -/
theorem operandFaultsInParameterOrder : Obligations.OperandFaultsInParameterOrder := by
  intro s a b dst k
  refine ⟨fun hx => ?first, fun x hx hy => ?second, fun x y hx hy hp => ?output,
    fun hp => conclude_of_error (dequeueStore_of_fault hp)⟩
  case first =>
    have store {f} := conclude_of_error (s := s) (binaryStore_of_fault_first (f := f) (b := b) (dst := dst) hx)
    have jump {taken} := conclude_of_error (s := s) (conditionalJump_of_fault_first (taken := taken) (b := b) hx)
    simp only [List.forall_mem_cons]
    exact ⟨store, store, store, store, jump, jump, conclude_of_error (emitOperand_of_fault hx),
      conclude_of_error (adjustBase_of_fault hx), fun _ h => nomatch h⟩
  case second =>
    have store {f} := conclude_of_error (s := s) (binaryStore_of_fault_second (f := f) (dst := dst) hx hy)
    have jump {taken} := conclude_of_error (s := s) (conditionalJump_of_fault_second (taken := taken) hx hy)
    simp only [List.forall_mem_cons]
    exact ⟨store, store, store, store, jump, jump, fun _ h => nomatch h⟩
  case output =>
    have store {f} := conclude_of_error (s := s) (binaryStore_of_fault_output (f := f) hx hy hp)
    simp only [List.forall_mem_cons]
    exact ⟨store, store, store, store, fun _ h => nomatch h⟩

/-- Settles O55: the codes are the table of R200. -/
theorem faultCodesAsListed : Obligations.FaultCodesAsListed := rfl

end Sys2Proof.Machine

/-! What every instruction leaves alone: the frames of the ten instructions, the registers, and a fault that commits
nothing (R22, R97, R98, R207). -/

namespace Sys2Proof.Machine

open Sys2Proof.Claims

/-! ### What an instruction's effect changes -/

/-- The instructions that write a word to memory (R96). -/
def Instr.Stores (i : Instr) : Prop := (binaryForm i).isSome ∨ ∃ dst, i = .input dst

section Effect

variable {i : Instr} {s t : State}

/-- Memory and the queue are written by the storing instructions alone (R96, R120). -/
theorem Effect.mem_queue_of_not_stores (h : Effect i s t) (hi : ¬Instr.Stores i) :
    t.mem = s.mem ∧ t.queue = s.queue := by
  cases h with
  | binary hf => exact absurd (.inl (by rw [hf]; rfl)) hi
  | input hf => exact absurd (.inr ⟨_, hf⟩) hi
  | _ => exact ⟨rfl, rfl⟩

theorem Effect.calls (h : Effect i s t) : t.calls = s.calls := by
  cases h <;> rfl

/-- The relative base is written by ADJUST_RELATIVE_BASE alone (R22, R150). -/
theorem Effect.rb_cases (h : Effect i s t) : t.rb = s.rb ∨
    ∃ a x, i = .adjustRelativeBase a ∧ resolveRead s a = .ok x ∧ t.rb.toInt = s.rb.toInt + x.toInt := by
  cases h with
  | base hi hx hr => exact .inr ⟨_, _, hi, hx, hr⟩
  | _ => exact .inl rfl

theorem length_encode_of_binaryForm {f : Int → Int → Int} {a b dst : Operand}
    (h : binaryForm i = some (f, a, b, dst)) : (encode i).length = 4 := by
  cases i with
  | add | mul | lessThan | equals => rfl
  | _ => cases h

/-- A jump's target operand is its second (R130, R131), and it is three words long (R60). -/
theorem eq_jump_of_jumpForm {taken : Int → Bool} {a b : Operand} (h : jumpForm i = some (taken, a, b)) :
    (i = .jumpIfTrue a b ∨ i = .jumpIfFalse a b) ∧ (encode i).length = 3 := by
  cases i with
  | jumpIfTrue => cases h; exact ⟨.inl rfl, rfl⟩
  | jumpIfFalse => cases h; exact ⟨.inr rfl, rfl⟩
  | _ => cases h

/-- The instruction pointer stays, moves past the instruction's words, or goes to a jump's target (R97, R132). -/
theorem Effect.ip_cases (h : Effect i s t) : t.ip = s.ip ∨ t.ip.toInt = s.ip.toInt + (encode i).length ∨
    ∃ a b, (i = .jumpIfTrue a b ∨ i = .jumpIfFalse a b) ∧ resolveRead s b = .ok t.ip := by
  cases h with
  | fault | starve | halt => exact .inl rfl
  | binary hi _ _ _ _ hn => exact .inr (.inl (by rw [length_encode_of_binaryForm hi]; exact hn))
  | input hi _ _ hn | output hi _ hn | base hi _ _ hn => exact .inr (.inl (by rw [hi]; exact hn))
  | pass hi _ _ _ hn => exact .inr (.inl (by rw [(eq_jump_of_jumpForm hi).2]; exact hn))
  | jump hi _ hy => exact .inr (.inr ⟨_, _, (eq_jump_of_jumpForm hi).1, hy⟩)

/-- OUTPUT and HALT alone make a call return that leaves the status other than a fault or a starved INPUT (R170). -/
theorem Effect.inCall_replies_of_running (h : Effect i s t) (hout : ∀ a, i ≠ .output a) (hhalt : i ≠ .halt)
    (ht : t.status = .running) : t.inCall = s.inCall ∧ t.replies = s.replies := by
  cases h with
  | fault | starve => cases ht
  | output hi => exact absurd hi (hout _)
  | halt hi => exact absurd hi hhalt
  | _ => exact ⟨rfl, rfl⟩

/-- A cycle that ends Faulted is one that raised the fault: nothing else sets that status (R175). -/
theorem Effect.eq_raise_of_faulted {k : FaultKind} {f : Word} (h : Effect i s t) (ht : t.status = .faulted k f) :
    t = s.raise k ∧ f = s.ip ∧ raisedByCycle k = true := by
  cases h with
  | fault k' hk => cases ht; exact ⟨rfl, rfl, hk⟩
  | _ => cases ht

theorem Effect.mem_wf (h : Effect i s t) (hs : s.mem.wf) : t.mem.wf := by
  cases h with
  | binary _ _ _ hp => exact Memory.wf_write hs (resolveWrite_le hp) _
  | input _ hp => exact Memory.wf_write hs (resolveWrite_le hp) _
  | _ => exact hs

/-- A binary instruction raises a fault or commits its result (R96). -/
theorem Effect.binary_cases {f : Int → Int → Int} {a b dst : Operand} (h : Effect i s t)
    (hi : binaryForm i = some (f, a, b, dst)) :
    (∃ k, t = s.raise k) ∨ ∃ x y r n p, resolveRead s a = .ok x ∧ resolveRead s b = .ok y ∧
      resolveWrite s dst = .ok p ∧ r.toInt = f x.toInt y.toInt ∧ t = ((s.store p r).goto n).setStatus .running := by
  cases h with
  | fault k => exact .inl ⟨k, rfl⟩
  | binary hi' hx hy hp hr =>
    cases hi.symm.trans hi'
    exact .inr ⟨_, _, _, _, _, hx, hy, hp, hr, rfl⟩
  | input hi' | starve hi' | output hi' | base hi' | halt hi' => subst hi'; cases hi
  | jump hi' | pass hi' => obtain ⟨rfl | rfl, -⟩ := eq_jump_of_jumpForm hi' <;> cases hi

/-- INPUT raises a fault, starves on an empty queue, or stores and removes the oldest value (R120). -/
theorem Effect.input_cases {dst : Operand} (h : Effect (.input dst) s t) :
    (∃ k, t = s.raise k) ∨ (s.queue = [] ∧ t = s.starve) ∨ ∃ v q n p, resolveWrite s dst = .ok p ∧
      s.queue = v :: q ∧ t = (({ s with queue := q }.store p v).goto n).setStatus .running := by
  cases h with
  | fault k => exact .inl ⟨k, rfl⟩
  | starve _ _ hq => exact .inr (.inl ⟨hq, rfl⟩)
  | input hi hp hq => cases hi; exact .inr (.inr ⟨_, _, _, _, hp, hq, rfl⟩)
  | binary hi | output hi | jump hi | pass hi | base hi | halt hi => cases hi

end Effect

/-! ### Frames -/

/-- What a storing instruction with output operand `dst` leaves alone, the queue apart. -/
structure StoreFrame (dst : Operand) (s t : State) : Prop where
  other : ∀ p, resolveWrite s dst = .ok p → ∀ q, q ≠ p → t.mem.read q = s.mem.read q
  unresolved : ∀ k, resolveWrite s dst = .error k → ∀ q, t.mem.read q = s.mem.read q
  rb : t.rb = s.rb
  halted : t.halted = s.halted
  calls : t.calls = s.calls

theorem StoreFrame.of_mem_eq {dst : Operand} {s t : State} (hm : t.mem = s.mem) (hrb : t.rb = s.rb)
    (hh : t.halted = s.halted) (hc : t.calls = s.calls) : StoreFrame dst s t :=
  ⟨fun _ _ _ _ => by rw [hm], fun _ _ _ => by rw [hm], hrb, hh, hc⟩

/-- One word written at the address the output operand resolves to (R96). -/
theorem StoreFrame.of_write {dst : Operand} {s t : State} {p : Nat} {v : Word} (hwf : s.mem.wf)
    (hp : resolveWrite s dst = .ok p) (hm : t.mem = s.mem.write p v) (hrb : t.rb = s.rb) (hh : t.halted = s.halted)
    (hc : t.calls = s.calls) : StoreFrame dst s t where
  other p' hp' q hq := by
    cases hp.symm.trans hp'
    rw [hm, Memory.read_write_other hwf hq]
  unresolved k hk := by cases hp.symm.trans hk
  rb := hrb
  halted := hh
  calls := hc

/-- The frame of a binary instruction, and its result at its output address (R15, R41, R96). -/
theorem binary_frame {i : Instr} {f : Int → Int → Int} {a b dst : Operand} {s t : State} (hwf : s.mem.wf)
    (hi : binaryForm i = some (f, a, b, dst)) (h : exec i s = .next t) :
    (∀ p, resolveWrite s dst = .ok p → t.status = .running → ∀ x y, resolveRead s a = .ok x →
      resolveRead s b = .ok y → t.mem.read p = BitVec.ofInt 64 (f x.toInt y.toInt)) ∧
    StoreFrame dst s t ∧ t.queue = s.queue := by
  obtain ⟨k, rfl⟩ | ⟨x, y, r, n, p, hx, hy, hp, hr, rfl⟩ := (exec_effect h).binary_cases hi
  · exact ⟨fun _ _ ht => (nomatch ht), .of_mem_eq rfl rfl rfl rfl, rfl⟩
  · refine ⟨fun p' hp' _ x' y' hx' hy' => ?_, .of_write hwf hp rfl rfl rfl rfl, rfl⟩
    cases hp.symm.trans hp'
    cases hx.symm.trans hx'
    cases hy.symm.trans hy'
    rw [← hr, ofInt_toInt]
    exact Memory.read_write_same hwf p r

/-- The frame of INPUT, and the value it took from the queue at its output address (R120). -/
theorem input_frame {dst : Operand} {s t : State} (hwf : s.mem.wf) (h : exec (.input dst) s = .next t) :
    (∀ p, resolveWrite s dst = .ok p → t.status = .running → s.queue = t.mem.read p :: t.queue) ∧
    StoreFrame dst s t ∧ (t.queue = s.queue ∨ ∃ v, s.queue = v :: t.queue) := by
  obtain ⟨k, rfl⟩ | ⟨-, rfl⟩ | ⟨v, q, n, p, hp, hq, rfl⟩ := (exec_effect h).input_cases
  · exact ⟨fun _ _ ht => (nomatch ht), .of_mem_eq rfl rfl rfl rfl, .inl rfl⟩
  · exact ⟨fun _ _ ht => (nomatch ht), .of_mem_eq rfl rfl rfl rfl, .inl rfl⟩
  · refine ⟨fun p' hp' _ => ?_, .of_write hwf hp rfl rfl rfl rfl, .inr ⟨v, hq⟩⟩
    cases hp.symm.trans hp'
    exact hq.trans (congrArg (· :: q) (Memory.read_write_same hwf p v).symm)

/-- Settles O27: `binary_frame` for the four binary instructions, `input_frame` for INPUT. -/
theorem storingInstructionsFrame : Obligations.StoringInstructionsFrame := by
  intro s t a b dst hwf i hi h
  simp only [List.mem_cons, List.not_mem_nil, or_false] at hi
  have hframe : StoreFrame dst s t ∧ (t.queue = s.queue ∨ i = .input dst ∧ ∃ v, s.queue = v :: t.queue) := by
    have binary {f} (hform : binaryForm i = some (f, a, b, dst)) := (binary_frame hwf hform h).2
    obtain rfl | rfl | rfl | rfl | rfl := hi
    · exact (binary rfl).imp_right .inl
    · exact (binary rfl).imp_right .inl
    · exact (binary rfl).imp_right .inl
    · exact (binary rfl).imp_right .inl
    · exact (input_frame hwf h).2.imp_right fun hq => hq.imp_right fun hv => ⟨rfl, hv⟩
  obtain ⟨⟨hother, hunresolved, hrb, hhalted, hcalls⟩, hqueue⟩ := hframe
  refine ⟨fun p hp ht => ⟨fun x y hx hy => ?binary, ?input⟩, hother, hunresolved, hrb, hhalted, hcalls, hqueue⟩
  case input =>
    rintro rfl
    exact (input_frame hwf h).1 p hp ht
  case binary =>
    have result {f} (hform : binaryForm i = some (f, a, b, dst)) := (binary_frame hwf hform h).1 p hp ht x y hx hy
    rw [← ofInt_lessThanResult, ← ofInt_equalsResult]
    refine ⟨?_, ?_, ?_, ?_⟩ <;> rintro rfl <;> exact result rfl

/-- Settles O28: the instructions listed store nothing, so each field is written by the one its `Effect` lemma names. -/
theorem nonStoringInstructionsFrame : Obligations.NonStoringInstructionsFrame := by
  intro s t a b i hi h
  have he := exec_effect h
  simp only [List.mem_cons, List.not_mem_nil, or_false] at hi
  have hstore : ¬Instr.Stores i := by
    obtain rfl | rfl | rfl | rfl | rfl := hi <;> exact fun hs => hs.elim nofun nofun
  obtain ⟨hm, hq⟩ := he.mem_queue_of_not_stores hstore
  refine ⟨fun q => by rw [hm], hq, he.calls, fun hne => ?rb, fun hne => ?halted, fun hout hhalt => ?call⟩
  case rb =>
    refine he.rb_cases.resolve_right ?_
    rintro ⟨a', -, rfl, -⟩
    exact hne (by simpa using hi)
  case halted =>
    exact (he.halted_cases.resolve_left fun hhalt => hne hhalt.1).1
  case call =>
    refine he.inCall_replies_of_running ?_ hhalt
    rintro a' rfl
    exact hout (by simpa using hi)

/-! ### Steps -/

theorem step_next (s : State) : ∃ t, step s = .next t := by
  rcases hc : s.canCycle with _ | _
  · rcases hcalls : s.calls with _ | ⟨c, cs⟩
    · exact ⟨_, step_idle hc hcalls⟩
    · exact ⟨_, step_serve hc hcalls⟩
  · rw [step_cycle hc]
    exact cycle_next s

/-- Settles O37: a cycle, a host call served and the idle step each answer next. -/
theorem stepAlwaysAnswersNext : Obligations.StepAlwaysAnswersNext := step_next

/-- A step that is a cycle raises the fetch's fault or has its instruction's effect. -/
theorem step_cases_of_canCycle {s t : State} (hc : s.canCycle = true) (h : step s = .next t) :
    (∃ k, raisedByCycle k = true ∧ t = s.raise k) ∨ ∃ i, fetch s = .ok i ∧ Effect i s t := by
  obtain ⟨-, k, -, hk, rfl⟩ | ⟨-, i, hf, -, he⟩ | ⟨hn, -⟩ | ⟨hn, -⟩ := step_cases h
  · exact .inl ⟨k, hk, rfl⟩
  · exact .inr ⟨i, hf, he⟩
  · cases hn.symm.trans hc
  · cases hn.symm.trans hc

theorem State.serve_resume (s : State) (input : Option Word) : s.serve (.resume input) = s.beginResume input := rfl

/-- What a host call leaves alone (R171, R180 to R182). -/
theorem State.serve_frame (s : State) (c : HostCall) :
    (s.serve c).mem = s.mem ∧ (s.serve c).ip = s.ip ∧ (s.serve c).rb = s.rb ∧
      ∃ vs, (s.serve c).queue = s.queue ++ vs := by
  have same : ∃ vs, s.queue = s.queue ++ vs := ⟨[], (List.append_nil _).symm⟩
  cases c with
  | enqueue v => exact ⟨rfl, rfl, rfl, [v], rfl⟩
  | resume input =>
    obtain ⟨-, h⟩ | ⟨k, f, -, h⟩ | ⟨-, h⟩ := beginResume_cases s input <;>
      rw [State.serve_resume, h]
    · exact ⟨rfl, rfl, rfl, same⟩
    · exact ⟨rfl, rfl, rfl, same⟩
    · exact ⟨rfl, rfl, rfl, input.toList, rfl⟩
  | peek a => exact ⟨rfl, rfl, rfl, same⟩
  | snapshot => exact ⟨rfl, rfl, rfl, same⟩

/-- A step that is no cycle leaves memory, `ip` and `rb` alone, and the queue can only grow (R176). -/
theorem step_frame_of_not_canCycle {s t : State} (hc : s.canCycle = false) (h : step s = .next t) :
    t.mem = s.mem ∧ t.ip = s.ip ∧ t.rb = s.rb ∧ ∃ vs, t.queue = s.queue ++ vs := by
  obtain ⟨hy, -⟩ | ⟨hy, -⟩ | ⟨-, c, cs, -, rfl⟩ | ⟨-, -, rfl⟩ := step_cases h
  · cases hc.symm.trans hy
  · cases hc.symm.trans hy
  · exact State.serve_frame { s with calls := cs } c
  · exact ⟨rfl, rfl, rfl, [], (List.append_nil _).symm⟩

/-- Settles O39: a host call keeps `rb` (`step_frame_of_not_canCycle`), and so does every other cycle
(`Effect.rb_cases`). -/
theorem onlyAdjustRelativeBaseWritesBase : Obligations.OnlyAdjustRelativeBaseWritesBase := by
  intro s t h hne
  rcases hc : s.canCycle with _ | _
  · obtain ⟨-, -, hrb, -⟩ := step_frame_of_not_canCycle hc h
    exact absurd hrb hne
  · obtain ⟨k, -, rfl⟩ | ⟨i, hf, he⟩ := step_cases_of_canCycle hc h
    · exact absurd rfl hne
    · obtain ⟨a, x, rfl, hx, hr⟩ := he.rb_cases.resolve_left hne
      exact ⟨rfl, a, x, hf, hx, hr⟩

/-- Settles O43: a host call keeps `ip` (`step_frame_of_not_canCycle`); a cycle moves it as `Effect.ip_cases` says. -/
theorem instructionPointerMoves : Obligations.InstructionPointerMoves := by
  intro s t h hne
  rcases hc : s.canCycle with _ | _
  · obtain ⟨-, hip, -⟩ := step_frame_of_not_canCycle hc h
    exact absurd hip hne
  · obtain ⟨k, -, rfl⟩ | ⟨i, hf, he⟩ := step_cases_of_canCycle hc h
    · exact absurd rfl hne
    · exact ⟨rfl, i, hf, he.ip_cases.resolve_left hne⟩

/-! ### Terminal instances and faults -/

theorem canCycle_of_terminal {s : State} (hs : s.status = .halted ∨ ∃ k f, s.status = .faulted k f) :
    s.canCycle = false := by
  refine Bool.eq_false_iff.2 fun hc => ?_
  obtain hrun | hrun := (runnable_iff _).1 ((canCycle_iff s).1 hc).2 <;> simp [hrun] at hs

/-- No host call takes an instance out of a terminal status (R172, R175). -/
theorem State.serve_status_of_terminal {s : State} (hs : s.status = .halted ∨ ∃ k f, s.status = .faulted k f)
    (c : HostCall) : (s.serve c).status = s.status := by
  cases c with
  | resume input =>
    obtain ⟨-, h⟩ | ⟨k, f, -, h⟩ | ⟨hrun, -⟩ := beginResume_cases s input
    · rw [State.serve_resume, h, State.answer_status]
    · rw [State.serve_resume, h, State.answer_status]
    · obtain hrun | hrun := (runnable_iff _).1 hrun <;> simp [hrun] at hs
  | _ => rfl

theorem step_keeps_terminal_status {s t : State} (hs : s.status = .halted ∨ ∃ k f, s.status = .faulted k f)
    (h : step s = .next t) : t.status = s.status := by
  have hc := canCycle_of_terminal hs
  obtain ⟨hy, -⟩ | ⟨hy, -⟩ | ⟨-, c, cs, -, rfl⟩ | ⟨-, -, rfl⟩ := step_cases h
  · cases hc.symm.trans hy
  · cases hc.symm.trans hy
  · exact State.serve_status_of_terminal (s := { s with calls := cs }) hs c
  · rfl

/-- Settles O42: no cycle runs on a terminal instance, and no other step changes more than the queue. -/
theorem terminalStatusIsForever : Obligations.TerminalStatusIsForever := by
  intro s t hs h
  have hc := canCycle_of_terminal hs
  obtain ⟨hm, hip, hrb, hq⟩ := step_frame_of_not_canCycle hc h
  obtain ⟨hy, -⟩ | ⟨hy, -⟩ | ⟨-, hh, -⟩ := step_halted_cases h
  · cases hc.symm.trans hy
  · cases hc.symm.trans hy
  · exact ⟨step_keeps_terminal_status hs h, hm, hip, hrb, hh, hq⟩

/-- A cycle that ends Faulted raised that fault at its own `ip`, and committed nothing (R175, R207). -/
theorem step_eq_raise_of_faulted {s t : State} {k : FaultKind} {f : Word} (hc : s.canCycle = true)
    (h : step s = .next t) (ht : t.status = .faulted k f) :
    t = s.raise k ∧ f = s.ip ∧ raisedByCycle k = true := by
  obtain ⟨k', hk, rfl⟩ | ⟨i, -, he⟩ := step_cases_of_canCycle hc h
  · cases ht; exact ⟨rfl, rfl, hk⟩
  · exact he.eq_raise_of_faulted ht

/-- Settles O29: the cycle raised its fault (`step_eq_raise_of_faulted`), and the status is terminal. -/
theorem faultCommitsNothing : Obligations.FaultCommitsNothing := by
  refine ⟨fun s t k f hc h ht => ?_, fun s t k f hs h => ?_⟩
  · obtain ⟨rfl, hf, -⟩ := step_eq_raise_of_faulted hc h ht
    exact ⟨raise_eq_faultedAt s k, hf⟩
  · rw [step_keeps_terminal_status (.inr ⟨k, f, hs⟩) h, hs]

end Sys2Proof.Machine

/-! The invariant (R23, R40, R171, R207, R208): it holds at reset and every step keeps it. -/

namespace Sys2Proof.Machine

open Sys2Proof.Claims

/-- Settles O3: unwritten memory is canonical, and the instance is Running, outside any call. -/
theorem resetMeetsInvariant : Obligations.ResetMeetsInvariant where
  mem_wf := ⟨.nil, nofun⟩
  halted_iff := ⟨nofun, nofun⟩
  fault_record := nofun
  call_running := nofun

/-- A cycle keeps the invariant: memory by `Effect.mem_wf`, the fault record by `step_eq_raise_of_faulted`, and the call
by the rows of the transition table. -/
theorem State.Inv.cycle {s t : State} (hs : s.Inv) (hc : s.canCycle = true) (h : step s = .next t) : t.Inv where
  mem_wf := by
    obtain ⟨k, -, rfl⟩ | ⟨i, -, he⟩ := step_cases_of_canCycle hc h
    · exact hs.mem_wf
    · exact he.mem_wf hs.mem_wf
  halted_iff := step_keeps_halted_iff h hs.halted_iff
  fault_record k f ht := by
    obtain ⟨rfl, hf, hk⟩ := step_eq_raise_of_faulted hc h ht
    exact ⟨hf, hk⟩
  call_running hin := by
    obtain ⟨_, -, -, -, ht, -⟩ | ⟨_, _, -, -, ht, -⟩ | ⟨_, -, -, -, hout, -⟩ | ⟨-, -, hout, -⟩ | ⟨_, -, hout, -⟩ :=
      step_transitions_of_canCycle hc h
    · exact ht
    · exact ht
    · cases hin.symm.trans hout
    · cases hin.symm.trans hout
    · cases hin.symm.trans hout

/-- Answering the host and queueing a value change no field the invariant speaks of. -/
theorem State.Inv.of_eq {s t : State} (hs : s.Inv) (hm : t.mem = s.mem) (hip : t.ip = s.ip)
    (hh : t.halted = s.halted) (hst : t.status = s.status) (hin : t.inCall = s.inCall) : t.Inv where
  mem_wf := hm ▸ hs.mem_wf
  halted_iff := by rw [hh, hst]; exact hs.halted_iff
  fault_record := by rw [hst, hip]; exact hs.fault_record
  call_running := by rw [hst, hin]; exact hs.call_running

theorem State.Inv.serve {s : State} (hs : s.Inv) (c : HostCall) : (s.serve c).Inv := by
  cases c with
  | enqueue v => exact hs.of_eq rfl rfl rfl rfl rfl
  | peek a => exact hs.of_eq rfl rfl rfl rfl rfl
  | snapshot => exact hs.of_eq rfl rfl rfl rfl rfl
  | resume input =>
    rw [State.serve_resume]
    obtain ⟨-, h⟩ | ⟨k, f, -, h⟩ | ⟨hrun, h⟩ := beginResume_cases s input <;> rw [h]
    · exact hs.of_eq rfl rfl rfl rfl rfl
    · exact hs.of_eq rfl rfl rfl rfl rfl
    · exact ⟨hs.mem_wf, ⟨fun hh => absurd (hs.halted_iff.1 hh) (Status.ne_halted_of_runnable hrun), nofun⟩, nofun,
        fun _ => rfl⟩

/-- Settles O38: a cycle keeps the invariant (`State.Inv.cycle`), and so does every host call (`State.Inv.serve`). -/
theorem stepKeepsInvariant : Obligations.StepKeepsInvariant := by
  intro s t hs h
  obtain ⟨hc, -⟩ | ⟨hc, -⟩ | ⟨-, c, cs, -, rfl⟩ | ⟨-, -, rfl⟩ := step_cases h
  · exact hs.cycle hc h
  · exact hs.cycle hc h
  · exact (hs.of_eq (t := { s with calls := cs }) rfl rfl rfl rfl rfl).serve c
  · exact hs

/-! ### Host calls and construction -/

theorem beginResume_of_faulted {s : State} {k : FaultKind} {f : Word} (h : s.status = .faulted k f)
    (input : Option Word) : s.beginResume input = s.answer (.fault k f) := by
  simp only [State.beginResume, h]

/-- Settles O31: no cycle runs in status Faulted, so the step serves the resume, which only answers. -/
theorem resumeAfterFaultRepeatsIt : Obligations.ResumeAfterFaultRepeatsIt := by
  intro s input cs k f hs hcalls
  have hserve := step_serve (canCycle_of_terminal (.inr ⟨k, f, hs⟩)) hcalls
  exact hserve.trans (congrArg _ (beginResume_of_faulted (s := { s with calls := cs }) hs input))

/-- Settles O33: the step serves the enqueue, which is a push. -/
theorem enqueueAppends : Obligations.EnqueueAppends := fun _ _ _ hin hcalls =>
  step_serve (canCycle_of_not_inCall hin) hcalls

/-- Settles O35: the step serves the snapshot; canonical memories that read alike are equal (`Memory.ext_of_wf`). -/
theorem snapshotIsMemory : Obligations.SnapshotIsMemory :=
  ⟨fun _ _ hin hcalls => step_serve (canCycle_of_not_inCall hin) hcalls,
    fun _ _ hs ht hread => congrArg Reply.view (Memory.ext_of_wf hs ht hread)⟩

theorem State.construct_of_not_inDomain {program : List Int} (h : ∃ v ∈ program, ¬InDomain v) :
    State.construct program = none := by
  obtain ⟨v, hv, hdom⟩ := h
  exact if_neg fun hall => hdom (hall.1 v hv)

/-- Settles O2: the empty program leaves memory unwritten, and the word 0 has no opcode (`decodeWord_zero`). -/
theorem constructRefusesAndAccepts : Obligations.ConstructRefusesAndAccepts :=
  ⟨fun _ => State.construct_of_not_inDomain, State.construct_of_inDomain nofun (Nat.zero_le _),
    step_of_fetch_fault rfl (fetch_of_invalid (s := State.reset.beginResume none) (by decide) decodeWord_zero)⟩

end Sys2Proof.Machine

/-! A cycle is a function of memory, `ip`, `rb` and the queue (R99), and values queued behind do not disturb it (R188);
a stored word is fetched (R53); a jump to itself does not return (R183). -/

namespace Sys2Proof.Machine

open Sys2Proof.Claims

/-! ### Instances that agree up to values queued behind -/

/-- `u` is as `s`, with the values `vs` queued behind; what the host holds and the status may differ. -/
structure Alike (vs : List Word) (s u : State) : Prop where
  mem : u.mem = s.mem
  ip : u.ip = s.ip
  rb : u.rb = s.rb
  queue : u.queue = s.queue ++ vs
  inCall : u.inCall = s.inCall

/-- Cycles begun in `s` and `u` have ended in `t` and `v` with the same changes. -/
structure EndsAlike (vs : List Word) (s u t v : State) : Prop where
  alike : Alike vs t v
  status : v.status = t.status
  halted : t.halted = s.halted ∧ v.halted = u.halted ∨ t.halted = true ∧ v.halted = true
  calls : t.calls = s.calls ∧ v.calls = u.calls
  replies : ∃ rs, t.replies = s.replies ++ rs ∧ v.replies = u.replies ++ rs

/-- Two ways to end steps 4 to 8 of the cycle, in `s` and in `u`, with the same changes. Where values are queued behind,
an end that starves is left out, since there the two differ. -/
def SameEnd (vs : List Word) (s u : State) (e e' : Except FaultKind CycleEnd) : Prop :=
  ∀ t v, conclude s e = .next t → conclude u e' = .next v → vs = [] ∨ t.status ≠ .awaitingInput → EndsAlike vs s u t v

section SameEnd

variable {vs : List Word} {s u : State}

theorem EndsAlike.raise (h : Alike vs s u) (k : FaultKind) : EndsAlike vs s u (s.raise k) (u.raise k) where
  alike := ⟨h.mem, h.ip, h.rb, h.queue, rfl⟩
  status := by rw [State.raise_status, State.raise_status, h.ip]
  halted := .inl ⟨rfl, rfl⟩
  calls := ⟨rfl, rfl⟩
  replies := ⟨[.fault k s.ip], rfl, by rw [State.raise_replies, h.ip]⟩

theorem SameEnd.error (h : Alike vs s u) (k : FaultKind) : SameEnd vs s u (.error k) (.error k) := by
  intro t v ht hv _
  cases ht
  cases hv
  exact EndsAlike.raise h k

/-- A check both cycles make alike comes before what they do alike. -/
theorem SameEnd.bind {α : Type} (h : Alike vs s u) {x : Except FaultKind α} {f g : α → Except FaultKind CycleEnd}
    (hfg : ∀ a, SameEnd vs s u (f a) (g a)) : SameEnd vs s u (x >>= f) (x >>= g) := by
  cases x with
  | error k => exact SameEnd.error h k
  | ok a => exact hfg a

theorem SameEnd.proceed {t v : State} (h : Alike vs t v) (hh : t.halted = s.halted ∧ v.halted = u.halted)
    (hc : t.calls = s.calls ∧ v.calls = u.calls) (hr : t.replies = s.replies ∧ v.replies = u.replies) :
    SameEnd vs s u (.ok (.proceed t)) (.ok (.proceed v)) := by
  intro t' v' ht hv _
  cases ht
  cases hv
  exact ⟨⟨h.mem, h.ip, h.rb, h.queue, h.inCall⟩, rfl, .inl hh, hc, [],
    hr.1.trans (List.append_nil _).symm, hr.2.trans (List.append_nil _).symm⟩

end SameEnd

/-! ### The cycles -/

section SameCycle

variable {vs : List Word} {s u : State} (h : Alike vs s u)
include h

theorem Alike.resolveRead (o : Operand) : resolveRead u o = resolveRead s o := resolveRead_congr h.mem h.rb o

theorem Alike.resolveWrite (o : Operand) : resolveWrite u o = resolveWrite s o := resolveWrite_congr h.rb o

theorem Alike.sequential (n : Int) : sequential u n = sequential s n := by
  unfold Machine.sequential; rw [h.ip]

theorem Alike.binaryStore (f : Int → Int → Int) (a b dst : Operand) :
    SameEnd vs s u (binaryStore f a b dst s) (binaryStore f a b dst u) := by
  unfold Machine.binaryStore
  rw [h.resolveRead, h.resolveRead, h.resolveWrite, h.sequential]
  refine .bind h fun x => .bind h fun y => .bind h fun p => .bind h fun r => .bind h fun n => ?_
  exact .proceed ⟨congrArg (·.write p r) h.mem, rfl, h.rb, h.queue, h.inCall⟩ ⟨rfl, rfl⟩ ⟨rfl, rfl⟩ ⟨rfl, rfl⟩

/-- INPUT takes the same oldest value; on an empty queue both starve, or values behind make the difference. -/
theorem Alike.dequeueStore (dst : Operand) : SameEnd vs s u (dequeueStore dst s) (dequeueStore dst u) := by
  unfold Machine.dequeueStore
  rw [h.resolveWrite, h.sequential]
  refine .bind h fun p => .bind h fun n => ?_
  rcases hq : s.queue with _ | ⟨v, q⟩
  · intro t w ht hw hvs
    cases ht
    obtain rfl := hvs.resolve_right fun hne => hne rfl
    rw [h.queue, hq] at hw
    cases hw
    exact ⟨⟨h.mem, h.ip, h.rb, h.queue, rfl⟩, rfl, .inl ⟨rfl, rfl⟩, ⟨rfl, rfl⟩, [.signal .needsInput], rfl, rfl⟩
  · rw [h.queue, hq]
    exact .proceed ⟨congrArg (·.write p v) h.mem, rfl, h.rb, rfl, h.inCall⟩ ⟨rfl, rfl⟩ ⟨rfl, rfl⟩ ⟨rfl, rfl⟩

theorem Alike.emitOperand (a : Operand) : SameEnd vs s u (emitOperand a s) (emitOperand a u) := by
  unfold Machine.emitOperand
  rw [h.resolveRead, h.sequential]
  refine .bind h fun x => .bind h fun n => ?_
  intro t v ht hv _
  cases ht
  cases hv
  exact ⟨⟨h.mem, rfl, h.rb, h.queue, rfl⟩, rfl, .inl ⟨rfl, rfl⟩, ⟨rfl, rfl⟩, [.signal (.output x)], rfl, rfl⟩

theorem Alike.conditionalJump (taken : Int → Bool) (a b : Operand) :
    SameEnd vs s u (conditionalJump taken a b s) (conditionalJump taken a b u) := by
  have goto (n : Word) : SameEnd vs s u (.ok (.proceed (s.goto n))) (.ok (.proceed (u.goto n))) :=
    .proceed ⟨h.mem, rfl, h.rb, h.queue, h.inCall⟩ ⟨rfl, rfl⟩ ⟨rfl, rfl⟩ ⟨rfl, rfl⟩
  unfold Machine.conditionalJump
  rw [h.resolveRead, h.resolveRead, h.sequential]
  refine .bind h fun x => .bind h fun y => ?_
  split
  · exact goto y
  · exact .bind h goto

theorem Alike.adjustBase (a : Operand) : SameEnd vs s u (adjustBase a s) (adjustBase a u) := by
  unfold Machine.adjustBase
  rw [h.resolveRead, h.sequential, h.rb]
  refine .bind h fun x => .bind h fun r => .bind h fun n => ?_
  exact .proceed ⟨h.mem, rfl, rfl, h.queue, h.inCall⟩ ⟨rfl, rfl⟩ ⟨rfl, rfl⟩ ⟨rfl, rfl⟩

theorem Alike.exec {i : Instr} {t v : State} (ht : exec i s = .next t) (hv : exec i u = .next v)
    (hvs : vs = [] ∨ t.status ≠ .awaitingInput) : EndsAlike vs s u t v := by
  cases i with
  | add a b dst | mul a b dst | lessThan a b dst | equals a b dst => exact h.binaryStore _ a b dst t v ht hv hvs
  | input dst => exact h.dequeueStore dst t v ht hv hvs
  | output a => exact h.emitOperand a t v ht hv hvs
  | jumpIfTrue a b | jumpIfFalse a b => exact h.conditionalJump _ a b t v ht hv hvs
  | adjustRelativeBase a => exact h.adjustBase a t v ht hv hvs
  | halt =>
    cases ht
    cases hv
    exact ⟨⟨h.mem, h.ip, h.rb, h.queue, rfl⟩, rfl, .inr ⟨rfl, rfl⟩, ⟨rfl, rfl⟩, [.signal .halted], rfl, rfl⟩

/-- The two cycles fetch the same instruction or the same fault, and end alike. -/
theorem Alike.step {t v : State} (hs : s.canCycle = true) (hu : u.canCycle = true) (ht : step s = .next t)
    (hv : step u = .next v) (hvs : vs = [] ∨ t.status ≠ .awaitingInput) : EndsAlike vs s u t v := by
  have hfetch : fetch u = fetch s := fetch_congr h.mem h.ip
  rw [step_cycle hs] at ht
  rw [step_cycle hu] at hv
  rcases hf : fetch s with k | i
  · cases (cycle_of_fault hf).symm.trans ht
    cases (cycle_of_fault (hfetch.trans hf)).symm.trans hv
    exact EndsAlike.raise h k
  · rw [cycle_of_fetch hf] at ht
    rw [cycle_of_fetch (hfetch.trans hf)] at hv
    exact h.exec ht hv hvs

end SameCycle

/-- Settles O44: the two instances are alike with nothing queued behind. -/
theorem cycleDependsOnInstanceOnly : Obligations.CycleDependsOnInstanceOnly := by
  intro s u t v hs hu hmem hip hrb hq ht hv
  have hin : u.inCall = s.inCall := ((canCycle_iff u).1 hu).1.trans ((canCycle_iff s).1 hs).1.symm
  have halike : Alike [] s u := ⟨hmem.symm, hip.symm, hrb.symm, by rw [List.append_nil, hq], hin⟩
  obtain ⟨⟨hmem', hip', hrb', hq', hin'⟩, hst, hhalted, -, hreplies⟩ := halike.step hs hu ht hv (.inl rfl)
  rw [List.append_nil] at hq'
  exact ⟨hmem'.symm, hip'.symm, hrb'.symm, hq'.symm, hst.symm, hin'.symm, hhalted, hreplies⟩

/-- Settles O45: the two instances are alike with `vs` queued behind, and share every field that alike instances may
differ in. -/
theorem laterInputsDoNotDisturb : Obligations.LaterInputsDoNotDisturb := by
  intro s t vs hs ht hne
  obtain ⟨v, hv⟩ := step_next { s with queue := s.queue ++ vs }
  have halike : Alike vs s { s with queue := s.queue ++ vs } := ⟨rfl, rfl, rfl, rfl, rfl⟩
  obtain ⟨⟨hmem, hip, hrb, hq, hin⟩, hst, hhalted, ⟨hcalls, hcalls'⟩, rs, hreplies, hreplies'⟩ :=
    halike.step hs hs ht hv (.inr hne)
  have hh : v.halted = t.halted := by
    obtain ⟨htv, huv⟩ | ⟨htv, huv⟩ := hhalted <;> rw [htv, huv]
  cases v
  rw [hv, Host.Outcome.next.injEq, State.mk.injEq]
  exact ⟨hmem, hip, hrb, hh, hst, hq, hin, hcalls'.trans hcalls.symm, hreplies'.trans hreplies.symm⟩

/-! ### A word stored where the next instruction is fetched (R53) -/

section StoredWord

variable {s t : State} {p : Nat} {w : Word} (hwf : s.mem.wf) (hip : t.ip.toInt = p)
  (hmem : t.mem = s.mem.write p w)
include hwf hip hmem

theorem read_stored_word : t.mem.read t.ip.toInt.toNat = w := by
  rw [hip, Int.toNat_natCast, hmem, Memory.read_write_same hwf]

variable (hc : t.canCycle = true)
include hc

/-- The stored word is the instruction word of what is run next, with the parameters that stand behind it (R53). -/
theorem step_of_stored_word {i : Instr} (hi : i.wf = true) (hhead : (encode i).head? = some w)
    (hbehind : ∀ (k : Nat) (h : k < (encode i).length), 0 < k →
      p + k ≤ Config.maxAddress ∧ s.mem.read (p + k) = (encode i)[k])
    (hp : p ≤ Config.maxAddress) : step t = exec i t := by
  have hpos : 0 < (encode i).length := List.length_pos_of_ne_nil (encode_ne_nil i)
  have haddr : t.ip.toInt.toNat = p := by rw [hip, Int.toNat_natCast]
  refine step_of_encode hc hi (by omega) ?_ fun k hk => ?_
  · rw [haddr]
    by_cases hone : (encode i).length = 1
    · omega
    · have := (hbehind ((encode i).length - 1) (by omega) (by omega)).1
      omega
  · rcases Nat.eq_zero_or_pos k with rfl | hk0
    · rw [List.head?_eq_getElem?, List.getElem?_eq_getElem hk, Option.some_inj] at hhead
      rw [Nat.add_zero, hhead, read_stored_word hwf hip hmem]
    · rw [haddr, hmem, Memory.read_write_other hwf (by omega)]
      exact (hbehind k hk hk0).2

theorem step_of_stored_truncated {d : Decoded} (hd : decodeWord w = .ok d)
    (hmax : Config.maxAddress < p + d.op.nin + d.op.nout) : step t = .next (faultedAt t .overflow) := by
  have hword := read_stored_word hwf hip hmem
  refine step_of_fetch_fault hc (fetch_of_truncated (by omega) (hword ▸ hd) ?_)
  rw [hip, Int.toNat_natCast, Opcode.params]
  omega

theorem step_of_stored_invalid {k : FaultKind} (hk : decodeWord w = .error k) :
    step t = .next (faultedAt t k) :=
  have hword := read_stored_word hwf hip hmem
  step_of_fetch_fault hc (fetch_of_invalid (by omega) (hword ▸ hk))

end StoredWord

/-- ADD whose output address is the next `ip` ends there, with its sum in memory (R97, R110). -/
theorem exec_add_storing_at_next {s : State} {a b dst : Operand} {x y : Word} {p : Nat} (hin : s.inCall = true)
    (hx : resolveRead s a = .ok x) (hy : resolveRead s b = .ok y) (hp : resolveWrite s dst = .ok p)
    (hsum : InDomain (x.toInt + y.toInt)) (hpip : (p : Int) = s.ip.toInt + 4) :
    ∃ t, exec (.add a b dst) s = .next t ∧ t.canCycle = true ∧ t.ip.toInt = p ∧
      t.mem = s.mem.write p (BitVec.ofInt 64 (x.toInt + y.toInt)) := by
  have hpmax : p ≤ 9223372036854775807 := resolveWrite_le hp
  have hdom : InDomain (s.ip.toInt + 4) := (inDomain_iff _).2 (by omega)
  exact ⟨_, (addWritesExactSum s a b dst x y p hx hy hp).1 hsum hdom.2, (canCycle_iff _).2 ⟨hin, rfl⟩,
    (toInt_ofInt hdom).trans hpip.symm, rfl⟩

/-- Settles O47: the next fetch finds the sum at its `ip`, with memory behind it as it was. -/
theorem storedWordIsFetchedNext : Obligations.StoredWordIsFetchedNext := by
  intro s a b dst x y p hin hwf hx hy hp hsum hpip
  obtain ⟨t, ht, hc, hip, hmem⟩ := exec_add_storing_at_next hin hx hy hp hsum hpip
  exact ⟨_, t, toInt_ofInt hsum, ht, hip, hmem ▸ Memory.read_write_same hwf p _,
    fun i hi hhead hbehind => step_of_stored_word hwf hip hmem hc hi hhead hbehind (resolveWrite_le hp),
    fun d => step_of_stored_truncated hwf hip hmem hc, fun k => step_of_stored_invalid hwf hip hmem hc⟩

/-! ### A jump to itself (R183) -/

/-- In `s` the next cycle is a conditional jump that is taken, to where it stands. -/
structure SelfJump (taken : Int → Bool) (a b : Operand) (x : Word) (i : Instr) (s : State) : Prop where
  canCycle : s.canCycle = true
  fetch : fetch s = .ok i
  condition : resolveRead s a = .ok x
  target : resolveRead s b = .ok s.ip

/-- Its cycle leads to the same again: only the status can differ, and it is Running. -/
theorem SelfJump.step {taken : Int → Bool} {a b : Operand} {x : Word} {i : Instr} {s : State}
    (h : SelfJump taken a b x i s) (hi : exec i s = conclude s (conditionalJump taken a b s))
    (ht : taken x.toInt = true) :
    step s = .next (s.setStatus .running) ∧ SelfJump taken a b x i (s.setStatus .running) := by
  constructor
  · rw [step_cycle h.canCycle, cycle_of_fetch h.fetch, hi]
    exact conclude_jump_taken h.condition h.target ht
  · exact ⟨(canCycle_iff _).2 ⟨((canCycle_iff s).1 h.canCycle).1, rfl⟩, (fetch_congr rfl rfl).trans h.fetch,
      (resolveRead_congr rfl rfl a).trans h.condition, (resolveRead_congr rfl rfl b).trans h.target⟩

theorem SelfJump.runCall {taken : Int → Bool} {a b : Operand} {x : Word} {i : Instr} {s : State}
    (h : SelfJump taken a b x i s) (hi : ∀ s, exec i s = conclude s (conditionalJump taken a b s))
    (ht : taken x.toInt = true) (fuel : Nat) : runCall fuel s = none := by
  have hin : ∀ {s}, SelfJump taken a b x i s → s.inCall = true := fun h => ((canCycle_iff _).1 h.canCycle).1
  induction fuel generalizing s with
  | zero => exact runCall_zero_of_inCall (hin h)
  | succ fuel ih =>
    obtain ⟨hstep, hnext⟩ := h.step (hi s) ht
    rw [runCall_succ_of_step (hin h) hstep, ih hnext]

/-- Settles O48: every cycle of the call leads to another `SelfJump`. -/
theorem selfJumpNeverReturns : Obligations.SelfJumpNeverReturns := by
  intro s i a b x hc hf hjump hx hb fuel
  obtain ⟨rfl, hne⟩ | ⟨rfl, rfl⟩ := hjump
  · exact SelfJump.runCall ⟨hc, hf, hx, hb⟩ (fun _ => rfl) (countsTrue_iff.2 hne) fuel
  · exact SelfJump.runCall ⟨hc, hf, hx, hb⟩ (fun _ => rfl) countsFalse_zero fuel

end Sys2Proof.Machine

/-! Several instances under one orchestrator (R33, R187): what a turn changes. -/

namespace Sys2Proof.Machine

/-! ### A message put in line -/

theorem Composition.deliver_frame (c : Composition) (i : Nat) (v : Word) :
    (c.deliver i v).instances = c.instances ∧ (c.deliver i v).route = c.route ∧
      (c.deliver i v).failed = c.failed := by
  unfold Composition.deliver
  split
  · exact ⟨rfl, rfl, rfl⟩
  · split <;> exact ⟨rfl, rfl, rfl⟩

theorem Composition.deliver_of_receiver {c : Composition} {i j : Nat} {q : List Word} (hroute : c.route[i]? = some j)
    (hq : c.pending[j]? = some q) (v : Word) :
    c.deliver i v = { c with pending := c.pending.set j (q ++ [v]) } := by
  simp only [Composition.deliver, hroute, hq]

/-! ### A turn -/

/-- The composition once instance `i`, given its oldest message, has been resumed and is left as `t` (R187). -/
def Composition.resumed (c : Composition) (i : Nat) (t : State) : Composition :=
  { c with instances := c.instances.set i t, pending := c.pending.set i (c.pending[i]?.getD []).tail }

theorem Composition.turn_of_failed {c : Composition} (h : c.failed.isSome = true) (fuel i : Nat) :
    c.turn fuel i = some c := if_pos h

section Turn

variable {fuel : Nat} {c : Composition} {i : Nat} {s t : State} (hfailed : c.failed = none)
  (hs : c.instances[i]? = some s) (hhalted : s.status ≠ .halted)
include hfailed hs hhalted

theorem Composition.turn_of_output {v : Word}
    (hres : s.resume fuel (c.pending[i]?.getD []).head? = some (.signal (.output v), t)) :
    c.turn fuel i = some ((c.resumed i t).deliver i v) := by
  simp [Composition.turn, hfailed, hs, hhalted, hres, Composition.resumed]

theorem Composition.turn_of_fault {k : FaultKind} {f : Word}
    (hres : s.resume fuel (c.pending[i]?.getD []).head? = some (.fault k f, t)) :
    c.turn fuel i = some { c.resumed i t with failed := some (i, k, f) } := by
  simp [Composition.turn, hfailed, hs, hhalted, hres, Composition.resumed]

end Turn

/-- A turn changes the instances at its own place alone, and no route (R33). -/
theorem Composition.turn_frame {fuel : Nat} {c c' : Composition} {i : Nat} (h : c.turn fuel i = some c') :
    c'.route = c.route ∧ (c'.instances = c.instances ∨ ∃ t, c'.instances = c.instances.set i t) := by
  unfold Composition.turn at h
  split at h
  · cases h; exact ⟨rfl, .inl rfl⟩
  · split at h
    · cases h; exact ⟨rfl, .inl rfl⟩
    · split at h
      · cases h; exact ⟨rfl, .inl rfl⟩
      · dsimp only at h
        split at h
        · cases h
        · next t _ =>
          split at h
          · cases h
            obtain ⟨hinst, hroute, -⟩ := Composition.deliver_frame (c.resumed i t) i _
            exact ⟨hroute, .inr ⟨t, hinst⟩⟩
          · cases h; exact ⟨rfl, .inr ⟨t, rfl⟩⟩
          · cases h; exact ⟨rfl, .inr ⟨t, rfl⟩⟩

/-- Settles O50: a turn sets the instance at its own place (`Composition.turn_frame`). -/
theorem turnLeavesOtherInstances : Obligations.TurnLeavesOtherInstances := by
  intro fuel c c' i h
  obtain ⟨hroute, hinst | ⟨t, hinst⟩⟩ := Composition.turn_frame h <;> rw [hinst]
  · exact ⟨hroute, rfl, fun _ _ => rfl⟩
  · exact ⟨hroute, List.length_set, fun j hj => List.getElem?_set_ne hj.symm⟩

/-- Settles O51: the turn is `Composition.turn_of_output`, and the message is put in the receiver's line. -/
theorem turnRoutesOutput : Obligations.TurnRoutesOutput := by
  intro fuel c i j s t v p q hfailed hs hhalted hp hres hroute hji hq
  have hp' : c.pending[i]?.getD [] = p := by rw [hp, Option.getD_some]
  have hqueue : (c.resumed i t).pending[j]? = some q := by
    rw [Composition.resumed, List.getElem?_set_ne hji.symm, hq]
  have hturn := Composition.turn_of_output hfailed hs hhalted (hp'.symm ▸ hres)
  rw [Composition.deliver_of_receiver (c := c.resumed i t) hroute hqueue] at hturn
  obtain ⟨hi, -⟩ := List.getElem?_eq_some_iff.1 hs
  obtain ⟨hip, -⟩ := List.getElem?_eq_some_iff.1 hp
  obtain ⟨hjp, -⟩ := List.getElem?_eq_some_iff.1 hqueue
  refine ⟨_, hturn, List.getElem?_set_self hi, ?_, List.getElem?_set_self hjp, rfl, hfailed⟩
  rw [List.getElem?_set_ne hji, Composition.resumed, hp', List.getElem?_set_self hip]

/-- A composition that has failed is left as it is by every schedule (R187). -/
theorem Composition.run_of_failed {c : Composition} (h : c.failed.isSome = true) (fuel : Nat) (schedule : List Nat) :
    c.run fuel schedule = some c := by
  induction schedule with
  | nil => rfl
  | cons i is ih => simp only [Composition.run, Composition.turn_of_failed h, ih]

/-- Settles O52: the turn is `Composition.turn_of_fault`, and the failure stays. -/
theorem faultEndsComposition : Obligations.FaultEndsComposition := by
  intro fuel c c' i s t k f hfailed hs hhalted hres h
  cases (Composition.turn_of_fault hfailed hs hhalted hres).symm.trans h
  exact ⟨rfl, Composition.run_of_failed rfl fuel⟩

end Sys2Proof.Machine

/-! Stepwise drive agrees with batch drive (R185, R187, R188): the runs of both drivers as runs of cycles, which alike
instances share. -/

namespace Sys2Proof.Machine

open Sys2Proof.Claims

/-! ### The cycles of a call -/

/-- A resume call is active and has a cycle to run (R171). -/
structure State.Active (s : State) : Prop where
  status : s.status = .running
  inCall : s.inCall = true

theorem State.Active.canCycle {s : State} (h : s.Active) : s.canCycle = true :=
  (canCycle_iff s).2 ⟨h.inCall, by rw [h.status]; rfl⟩

theorem State.Active.beginResume {s : State} (h : s.status.runnable = true) (input : Option Word) :
    (s.beginResume input).Active := by
  rw [beginResume_of_runnable ((runnable_iff _).1 h)]
  exact ⟨rfl, rfl⟩

/-- A call that is active already is begun by nothing. -/
theorem State.Active.beginResume_none {s : State} (h : s.Active) : s.beginResume none = s := by
  rw [beginResume_of_runnable (.inl h.status)]
  obtain ⟨hst, hin⟩ := h
  cases s
  cases hst
  cases hin
  simp

/-- What a cycle of an active call returns, with the status it leaves (R170). -/
inductive CycleResult (s t : State) : Option Reply → Prop where
  | active (hst : t.status = .running) : CycleResult s t none
  | output (v : Word) (hst : t.status = .running) : CycleResult s t (some (.signal (.output v)))
  | needsInput (hst : t.status = .awaitingInput) : CycleResult s t (some (.signal .needsInput))
  | halted (hst : t.status = .halted) : CycleResult s t (some (.signal .halted))
  | fault (k : FaultKind) (f : Word) (hst : t.status = .faulted k f) : CycleResult s t (some (.fault k f))

/-- The rows of the transition table, by what is returned. -/
theorem exists_cycleResult {s t : State} (hc : s.canCycle = true) (h : step s = .next t) :
    ∃ r, CycleResult s t r ∧ t.inCall = r.isNone ∧ t.replies = s.replies ++ r.toList := by
  obtain ⟨_, -, -, -, hst, hin, hr⟩ | ⟨_, v, -, -, hst, hin, hr⟩ | ⟨_, -, -, hst, hin, hr⟩ | ⟨-, hst, hin, hr⟩ |
    ⟨k, hst, hin, hr⟩ := step_transitions_of_canCycle hc h
  · exact ⟨_, .active hst, hin, hr.trans (List.append_nil _).symm⟩
  · exact ⟨_, .output v hst, hin, hr⟩
  · exact ⟨_, .needsInput hst, hin, hr⟩
  · exact ⟨_, .halted hst, hin, hr⟩
  · exact ⟨_, .fault k _ hst, hin, hr⟩

/-- A cycle that ends awaiting input is an INPUT on an empty queue, and left no other trace (R122). -/
theorem step_eq_starve_of_awaitingInput {s t : State} (hc : s.canCycle = true) (h : step s = .next t)
    (ht : t.status = .awaitingInput) : t = s.starve ∧ s.queue = [] := by
  obtain ⟨k, -, rfl⟩ | ⟨i, -, he⟩ := step_cases_of_canCycle hc h
  · cases ht
  · cases he with
    | starve _ _ hq => exact ⟨rfl, hq⟩
    | _ => cases ht

/-! ### Driven runs, cycle by cycle -/

/-- The driver that gives `inputs` one at each `NeedsInput`, with a call active in `s` and the outputs `outs` received,
comes to the end `e`. -/
inductive Drive : List Word → State → List Word → DriveEnd → Prop where
  | cycle {inputs outs : List Word} {s t : State} {e : DriveEnd} (h : step s = .next t) (ht : t.Active)
      (hrest : Drive inputs t outs e) : Drive inputs s outs e
  | output {inputs outs : List Word} {s t : State} {v : Word} {e : DriveEnd} (h : step s = .next t)
      (hst : t.status = .running) (hin : t.inCall = false) (hr : t.replies = s.replies ++ [.signal (.output v)])
      (hrest : Drive inputs (t.beginResume none) (outs ++ [v]) e) : Drive inputs s outs e
  | feed {inputs outs : List Word} {s t : State} {v : Word} {e : DriveEnd} (h : step s = .next t)
      (hst : t.status = .awaitingInput) (hrest : Drive inputs (t.beginResume (some v)) outs e) :
      Drive (v :: inputs) s outs e
  | wait {outs : List Word} {s t : State} (h : step s = .next t) (hst : t.status = .awaitingInput) :
      Drive [] s outs (.waiting t.ip outs)
  | halt {inputs outs : List Word} {s t : State} (h : step s = .next t) (hst : t.status = .halted) :
      Drive inputs s outs (.halted outs)
  | fault {inputs outs : List Word} {s t : State} {k : FaultKind} {f : Word} (h : step s = .next t)
      (hst : t.status = .faulted k f) : Drive inputs s outs (.failed k f outs)

/-! ### Inputs given one by one and inputs queued before (R188) -/

/-- Calls are active in two alike instances. -/
structure ActiveAlike (vs : List Word) (s u : State) : Prop extends Alike vs s u where
  left : s.Active
  right : u.Active

section ActiveAlike

variable {vs : List Word} {s t u v : State}

theorem ActiveAlike.endsAlike (h : ActiveAlike vs s u) (ht : step s = .next t) (hv : step u = .next v)
    (hvs : vs = [] ∨ t.status ≠ .awaitingInput) : EndsAlike vs s u t v :=
  h.toAlike.step h.left.canCycle h.right.canCycle ht hv hvs

theorem EndsAlike.activeAlike (h : EndsAlike vs s u t v) (ht : t.Active) : ActiveAlike vs t v :=
  ⟨h.alike, ht, h.status.trans ht.status, h.alike.inCall.trans ht.inCall⟩

theorem EndsAlike.active_left (h : EndsAlike vs s u t v) (hv : v.Active) : t.Active :=
  ⟨h.status.symm.trans hv.status, h.alike.inCall.symm.trans hv.inCall⟩

/-- The calls begun with no input on alike instances are alike. -/
theorem EndsAlike.beginResume (h : EndsAlike vs s u t v) (ht : t.status = .running) :
    ActiveAlike vs (t.beginResume none) (v.beginResume none) := by
  have hv : v.status = .running := h.status.trans ht
  refine ⟨?_, .beginResume (by rw [ht]; rfl) none, .beginResume (by rw [hv]; rfl) none⟩
  rw [beginResume_of_runnable (.inl ht), beginResume_of_runnable (.inl hv)]
  exact ⟨h.alike.mem, h.alike.ip, h.alike.rb, by simp [h.alike.queue], rfl⟩

/-- What is returned is the same on both sides. -/
theorem EndsAlike.replies_iff (h : EndsAlike vs s u t v) (r : Reply) :
    v.replies = u.replies ++ [r] ↔ t.replies = s.replies ++ [r] := by
  obtain ⟨rs, ht, hv⟩ := h.replies
  rw [ht, hv, List.append_cancel_left_eq, List.append_cancel_left_eq]

/-- A starved instance resumed with the next input is where the one with that input queued before still is. -/
theorem ActiveAlike.feed {w : Word} (h : ActiveAlike (w :: vs) s u) (ht : step s = .next t)
    (hst : t.status = .awaitingInput) :
    ActiveAlike vs (t.beginResume (some w)) u ∧ (t.beginResume (some w)).queue ≠ [] := by
  obtain ⟨rfl, hq⟩ := step_eq_starve_of_awaitingInput h.left.canCycle ht hst
  refine ⟨⟨⟨h.mem, h.ip, h.rb, ?_, h.right.inCall⟩, ⟨rfl, rfl⟩, h.right⟩, ?_⟩
  · rw [h.queue, hq]
    simp [State.beginResume, hq]
  · simp [State.beginResume]

end ActiveAlike

/-- With the inputs still to be given queued before, the driver comes to the same end. -/
theorem Drive.preloaded {inputs outs : List Word} {s b : State} {e : DriveEnd} (h : Drive inputs s outs e)
    (halike : ActiveAlike inputs s b) : Drive [] b outs e := by
  induction h generalizing b with
  | @feed inputs _ s t v _ h hst _ ih => exact ih (halike.feed h hst).1
  | @cycle inputs _ s t _ h ht _ ih =>
    obtain ⟨v, hv⟩ := step_next b
    have hends := halike.endsAlike h hv (.inr (by simp [ht.status]))
    have hact := hends.activeAlike ht
    exact .cycle hv hact.right (ih hact)
  | @output inputs _ s t w _ h hst hin hr _ ih =>
    obtain ⟨v, hv⟩ := step_next b
    have hends := halike.endsAlike h hv (.inr (by simp [hst]))
    exact .output hv (hends.status.trans hst) (hends.alike.inCall.trans hin) ((hends.replies_iff _).2 hr)
      (ih (hends.beginResume hst))
  | @wait _ s t h hst =>
    obtain ⟨v, hv⟩ := step_next b
    have hends := halike.endsAlike h hv (.inl rfl)
    exact hends.alike.ip ▸ .wait hv (hends.status.trans hst)
  | @halt inputs _ s t h hst =>
    obtain ⟨v, hv⟩ := step_next b
    exact .halt hv ((halike.endsAlike h hv (.inr (by simp [hst]))).status.trans hst)
  | @fault inputs _ s t k f h hst =>
    obtain ⟨v, hv⟩ := step_next b
    exact .fault hv ((halike.endsAlike h hv (.inr (by simp [hst]))).status.trans hst)

/-- To follow a run of `b` from an alike `s`, it is enough to follow its next cycle where that of `s` does not starve:
where it does, `s` is given the next input, and the cycle it then runs does not. -/
theorem Drive.of_endsAlike {inputs outs : List Word} {s b v : State} {e : DriveEnd} (halike : ActiveAlike inputs s b)
    (hv : step b = .next v)
    (hends : ∀ {inputs : List Word} {s t : State}, step s = .next t → (inputs = [] ∨ t.status ≠ .awaitingInput) →
      EndsAlike inputs s b t v → Drive inputs s outs e) : Drive inputs s outs e := by
  have follow {inputs : List Word} {s t : State} (halike : ActiveAlike inputs s b) (ht : step s = .next t)
      (hne : inputs = [] ∨ t.status ≠ .awaitingInput) : Drive inputs s outs e :=
    hends ht hne (halike.endsAlike ht hv hne)
  obtain ⟨t, ht⟩ := step_next s
  by_cases hst : t.status = .awaitingInput
  · cases inputs with
    | nil => exact follow halike ht (.inl rfl)
    | cons w inputs =>
      obtain ⟨hfed, hq⟩ := halike.feed ht hst
      obtain ⟨t', ht'⟩ := step_next (t.beginResume (some w))
      refine .feed ht hst (follow hfed ht' (.inr fun hst' => hq ?_))
      exact (step_eq_starve_of_awaitingInput hfed.left.canCycle ht' hst').2
  · exact follow halike ht (.inr hst)

/-- An end reached with all inputs queued before is reached where they are given one by one. -/
theorem Drive.of_preloaded {inputs outs : List Word} {s b : State} {e : DriveEnd} (h : Drive [] b outs e)
    (halike : ActiveAlike inputs s b) : Drive inputs s outs e := by
  generalize hnil : ([] : List Word) = none_left at h
  induction h generalizing inputs s with
  | feed => cases hnil
  | @cycle _ _ b v _ hv hact _ ih =>
    refine .of_endsAlike halike hv fun ht _ hends => ?_
    have ht' := hends.active_left hact
    exact .cycle ht ht' (ih (hends.activeAlike ht') hnil)
  | @output _ _ b v w _ hv hst hin hr _ ih =>
    refine .of_endsAlike halike hv fun ht _ hends => ?_
    have hst' := hends.status.symm.trans hst
    exact .output ht hst' (hends.alike.inCall.symm.trans hin) ((hends.replies_iff _).1 hr)
      (ih (hends.beginResume hst') hnil)
  | @wait _ b v hv hst =>
    refine .of_endsAlike halike hv fun ht hne hends => ?_
    have hst' := hends.status.symm.trans hst
    obtain rfl := hne.resolve_right fun hne => hne hst'
    exact hends.alike.ip ▸ .wait ht hst'
  | @halt _ _ b v hv hst =>
    exact .of_endsAlike halike hv fun ht _ hends => .halt ht (hends.status.symm.trans hst)
  | @fault _ _ b v k f hv hst =>
    exact .of_endsAlike halike hv fun ht _ hends => .fault ht (hends.status.symm.trans hst)

theorem drive_preloaded_iff {inputs outs : List Word} {s b : State} {e : DriveEnd} (halike : ActiveAlike inputs s b) :
    Drive [] b outs e ↔ Drive inputs s outs e := ⟨fun h => h.of_preloaded halike, fun h => h.preloaded halike⟩

/-! ### Resume calls and their cycles -/

section Resume

variable {s t : State} (hs : s.Active) (h : step s = .next t)
include hs

theorem resume_zero_of_active : s.resume 0 none = none := by
  rw [State.resume, hs.beginResume_none, runCall_zero_of_inCall hs.inCall]

include h

theorem resume_succ_of_active (ht : t.Active) (fuel : Nat) : s.resume (fuel + 1) none = t.resume fuel none := by
  rw [State.resume, State.resume, hs.beginResume_none, ht.beginResume_none, runCall_succ_of_step hs.inCall h]

theorem resume_succ_of_returned {r : Reply} (hin : t.inCall = false) (hr : t.replies = s.replies ++ [r]) (fuel : Nat) :
    s.resume (fuel + 1) none = some (r, t) := by
  rw [State.resume, hs.beginResume_none, runCall_succ_of_step hs.inCall h, runCall_of_not_inCall hin]
  simp [hr]

end Resume

/-- A cycle of an active call leaves it active, or the call returns with the result. -/
theorem active_or_returned {s t : State} (hs : s.Active) (h : step s = .next t) :
    t.Active ∨ ∃ r, CycleResult s t (some r) ∧ t.inCall = false ∧ t.replies = s.replies ++ [r] := by
  obtain ⟨r, hres, hin, hr⟩ := exists_cycleResult hs.canCycle h
  cases r with
  | some r => exact .inr ⟨r, hres, hin, hr⟩
  | none =>
    cases hres with
    | active hst => exact .inl ⟨hst, hin⟩

/-- More fuel does not change what a call returns (R183). -/
theorem resume_fuel_succ {fuel : Nat} {s : State} {x : Reply × State} (hs : s.Active)
    (h : s.resume fuel none = some x) : s.resume (fuel + 1) none = some x := by
  induction fuel generalizing s with
  | zero => cases (resume_zero_of_active hs).symm.trans h
  | succ fuel ih =>
    obtain ⟨t, ht⟩ := step_next s
    obtain hact | ⟨r, -, hin, hr⟩ := active_or_returned hs ht
    · rw [resume_succ_of_active hs ht hact] at h ⊢
      exact ih hact h
    · rw [resume_succ_of_returned hs ht hin hr] at h ⊢
      exact h

/-! ### The drivers' loops -/

/-- The policy that gives the listed inputs in their order, one at each `NeedsInput`. -/
def supply (inputs : List Word) : Nat → List Word → Option Word := fun given _ => inputs[given]?

theorem supply_nil (given : Nat) (outs : List Word) : supply [] given outs = none := rfl

/-- A loop starts by beginning its call. -/
theorem stepwiseLoop_beginResume {s : State} (hs : s.status.runnable = true) (fuel : Nat)
    (policy : Nat → List Word → Option Word) (n given : Nat) (input : Option Word) (outs : List Word) :
    stepwiseLoop fuel policy n given input s outs =
      stepwiseLoop fuel policy n given none (s.beginResume input) outs := by
  cases n with
  | zero => rfl
  | succ n => simp only [stepwiseLoop, State.resume, (State.Active.beginResume hs input).beginResume_none]

/-- The call a loop is in ends with a cycle that returns, after cycles that keep it active. -/
theorem Drive.of_resume {fuel : Nat} {inputs outs : List Word} {s t : State} {r : Reply} {e : DriveEnd} (hs : s.Active)
    (h : s.resume fuel none = some (r, t))
    (hlast : ∀ u : State, step u = .next t → CycleResult u t (some r) → t.inCall = false →
      t.replies = u.replies ++ [r] → Drive inputs u outs e) : Drive inputs s outs e := by
  induction fuel generalizing s with
  | zero => cases (resume_zero_of_active hs).symm.trans h
  | succ fuel ih =>
    obtain ⟨v, hv⟩ := step_next s
    obtain hact | ⟨r', hres, hin, hr⟩ := active_or_returned hs hv
    · rw [resume_succ_of_active hs hv hact] at h
      exact .cycle hv hact (ih hact h)
    · cases (resume_succ_of_returned hs hv hin hr fuel).symm.trans h
      exact hlast s hv hres hin hr

theorem drop_of_supply_eq_none {inputs outs : List Word} {given : Nat} (h : supply inputs given outs = none) :
    inputs.drop given = [] := List.drop_eq_nil_iff.2 (List.getElem?_eq_none_iff.1 h)

theorem drop_of_supply_eq_some {inputs outs : List Word} {given : Nat} {v : Word}
    (h : supply inputs given outs = some v) : inputs.drop given = v :: inputs.drop (given + 1) := by
  obtain ⟨hlt, rfl⟩ := List.getElem?_eq_some_iff.1 h
  exact List.drop_eq_getElem_cons hlt

theorem supply_of_drop_eq_nil {inputs : List Word} {given : Nat} (h : inputs.drop given = []) (outs : List Word) :
    supply inputs given outs = none := List.getElem?_eq_none_iff.2 (List.drop_eq_nil_iff.1 h)

theorem supply_of_drop_eq_cons {inputs rest : List Word} {given : Nat} {v : Word}
    (h : inputs.drop given = v :: rest) :
    (∀ outs, supply inputs given outs = some v) ∧ inputs.drop (given + 1) = rest := by
  constructor
  · intro outs
    have hhead := congrArg List.head? h
    rwa [List.head?_drop] at hhead
  · rw [← List.tail_drop, h, List.tail_cons]

/-- What the stepwise driver's loop answers is an end of its run of cycles. -/
theorem drive_of_stepwiseLoop {fuel n given : Nat} {inputs outs : List Word} {s : State} {e : DriveEnd} (hs : s.Active)
    (h : stepwiseLoop fuel (supply inputs) n given none s outs = some e) : Drive (inputs.drop given) s outs e := by
  induction n generalizing given s outs with
  | zero => cases h
  | succ n ih =>
    rcases hres : s.resume fuel none with _ | ⟨r, t⟩
    · simp [stepwiseLoop, hres] at h
    · refine .of_resume hs hres fun u hu hcycle hin hr => ?_
      have next {given : Nat} {outs : List Word} (input : Option Word) (ht : t.status.runnable = true)
          (h : stepwiseLoop fuel (supply inputs) n given input t outs = some e) :
          Drive (inputs.drop given) (t.beginResume input) outs e :=
        ih (.beginResume ht input) (stepwiseLoop_beginResume ht .. ▸ h)
      simp only [stepwiseLoop, hres] at h
      cases hcycle with
      | output v hst => exact .output hu hst hin hr (next none (by rw [hst]; rfl) h)
      | needsInput hst =>
        rcases hp : supply inputs given outs with _ | v
        · rw [hp] at h
          cases h
          rw [drop_of_supply_eq_none hp]
          exact .wait hu hst
        · rw [hp] at h
          rw [drop_of_supply_eq_some hp]
          exact .feed hu hst (next (some v) (by rw [hst]; rfl) h)
      | halted hst => cases h; exact .halt hu hst
      | fault k f hst => cases h; exact .fault hu hst

/-- What a call returns that leaves a status other than Running (R170). -/
def Status.reply : Status → Option Reply
  | .running => none
  | .awaitingInput => some (.signal .needsInput)
  | .halted => some (.signal .halted)
  | .faulted k f => some (.fault k f)

theorem resume_succ_of_status {s t : State} {r : Reply} (hs : s.Active) (h : step s = .next t)
    (ht : t.status.reply = some r) (fuel : Nat) : s.resume (fuel + 1) none = some (r, t) := by
  obtain hact | ⟨r', hres, hin, hr⟩ := active_or_returned hs h
  · simp [hact.status, Status.reply] at ht
  · have hsame : r' = r := by
      cases hres with
      | output v hst => simp [hst, Status.reply] at ht
      | needsInput hst | halted hst | fault k f hst => simpa [hst, Status.reply] using ht
    exact hsame ▸ resume_succ_of_returned hs h hin hr fuel

/-- The stepwise driver's loop answers `e` from some fuel on. -/
def StepwiseEnds (inputs : List Word) (given : Nat) (s : State) (outs : List Word) (e : DriveEnd) : Prop :=
  ∃ enough, ∀ fuel n, enough ≤ fuel → enough ≤ n → stepwiseLoop fuel (supply inputs) n given none s outs = some e

section StepwiseEnds

variable {inputs outs : List Word} {given : Nat} {s t : State} {e : DriveEnd}

theorem StepwiseEnds.of_succ (enough : Nat) (h : ∀ fuel n, enough ≤ fuel → enough ≤ n →
    stepwiseLoop (fuel + 1) (supply inputs) (n + 1) given none s outs = some e) :
    StepwiseEnds inputs given s outs e := by
  refine ⟨enough + 1, fun fuel n hfuel hn => ?_⟩
  obtain ⟨fuel, rfl⟩ := Nat.exists_eq_add_of_lt hfuel
  obtain ⟨n, rfl⟩ := Nat.exists_eq_add_of_lt hn
  exact h _ _ (Nat.le_add_right _ _) (Nat.le_add_right _ _)

/-- A loop that goes on after its call ends as the loop of the next call does. -/
theorem StepwiseEnds.of_next {given' : Nat} {outs' : List Word} {input : Option Word} (ht : t.status.runnable = true)
    (hnext : StepwiseEnds inputs given' (t.beginResume input) outs' e)
    (h : ∀ fuel n, stepwiseLoop (fuel + 1) (supply inputs) (n + 1) given none s outs =
      stepwiseLoop (fuel + 1) (supply inputs) n given' input t outs') : StepwiseEnds inputs given s outs e := by
  obtain ⟨enough, hloop⟩ := hnext
  refine .of_succ enough fun fuel n hfuel hn => ?_
  rw [h, stepwiseLoop_beginResume ht]
  exact hloop (fuel + 1) n (by omega) hn

/-- A cycle that keeps the call active costs one unit of the call's fuel. -/
theorem StepwiseEnds.of_cycle (hs : s.Active) (h : step s = .next t) (ht : t.Active)
    (hnext : StepwiseEnds inputs given t outs e) : StepwiseEnds inputs given s outs e := by
  obtain ⟨enough, hloop⟩ := hnext
  refine .of_succ enough fun fuel n hfuel hn => ?_
  have hless := hloop fuel (n + 1) hfuel (by omega)
  have hmore := hloop (fuel + 1) (n + 1) (by omega) (by omega)
  rcases hres : t.resume fuel none with _ | x
  · simp [stepwiseLoop, hres] at hless
  · simp only [stepwiseLoop, resume_fuel_succ ht hres] at hmore
    simp only [stepwiseLoop, resume_succ_of_active hs h ht, hres]
    exact hmore

end StepwiseEnds

/-- With fuel enough the stepwise driver's loop answers the end of its run of cycles. -/
theorem stepwiseEnds_of_drive {inputs left outs : List Word} {s : State} {e : DriveEnd} (h : Drive left s outs e)
    (hs : s.Active) {given : Nat} (hleft : inputs.drop given = left) : StepwiseEnds inputs given s outs e := by
  induction h generalizing given with
  | cycle h ht _ ih => exact .of_cycle hs h ht (ih ht hleft)
  | output h hst hin hr _ ih =>
    have hrun := (runnable_iff _).2 (.inl hst)
    refine .of_next hrun (ih (.beginResume hrun none) hleft) fun fuel n => ?_
    simp only [stepwiseLoop, resume_succ_of_returned hs h hin hr]
  | feed h hst _ ih =>
    have hrun := (runnable_iff _).2 (.inr hst)
    obtain ⟨hsupply, hleft'⟩ := supply_of_drop_eq_cons hleft
    refine .of_next hrun (ih (.beginResume hrun _) hleft') fun fuel n => ?_
    simp only [stepwiseLoop, resume_succ_of_status hs h (congrArg Status.reply hst), hsupply]
  | wait h hst =>
    refine .of_succ 0 fun fuel n _ _ => ?_
    simp only [stepwiseLoop, resume_succ_of_status hs h (congrArg Status.reply hst), supply_of_drop_eq_nil hleft]
  | halt h hst =>
    refine .of_succ 0 fun fuel n _ _ => ?_
    simp only [stepwiseLoop, resume_succ_of_status hs h (congrArg Status.reply hst)]
  | fault h hst =>
    refine .of_succ 0 fun fuel n _ _ => ?_
    simp only [stepwiseLoop, resume_succ_of_status hs h (congrArg Status.reply hst)]

theorem exists_stepwiseLoop_iff_drive {inputs : List Word} {s : State} {e : DriveEnd} (hs : s.status.runnable = true) :
    (∃ fuel, stepwiseLoop fuel (supply inputs) fuel 0 none s [] = some e) ↔
      Drive inputs (s.beginResume none) [] e := by
  have hact := State.Active.beginResume hs none
  simp only [stepwiseLoop_beginResume hs]
  constructor
  · rintro ⟨fuel, h⟩
    exact drive_of_stepwiseLoop hact h
  · intro h
    obtain ⟨enough, hloop⟩ := stepwiseEnds_of_drive h hact (given := 0) rfl
    exact ⟨enough, hloop enough enough le_rfl le_rfl⟩

/-- The batch driver is the stepwise driver that has no input to give, to which waiting is a fault (R185, R205). -/
theorem batchLoop_eq_map_stepwiseLoop (fuel n given : Nat) (s : State) (outs : List Word) :
    batchLoop fuel n s outs = (stepwiseLoop fuel (supply []) n given none s outs).map asBatchEnd := by
  induction n generalizing s outs with
  | zero => rfl
  | succ n ih =>
    rcases hres : s.resume fuel none with _ | ⟨r, t⟩
    · simp only [batchLoop, stepwiseLoop, hres, Option.map_none]
    · cases r with
      | signal g =>
        cases g with
        | output v => simp only [batchLoop, stepwiseLoop, hres, ih]
        | needsInput => simp only [batchLoop, stepwiseLoop, hres, supply_nil, Option.map_some, asBatchEnd]
        | halted => simp only [batchLoop, stepwiseLoop, hres, Option.map_some, asBatchEnd]
      | fault k f => simp only [batchLoop, stepwiseLoop, hres, Option.map_some, asBatchEnd]
      | word v | peekError k | view m => simp only [batchLoop, stepwiseLoop, hres, Option.map_none]

/-! ### Both drives -/

theorem foldl_push (s : State) (inputs : List Word) :
    inputs.foldl State.push s = { s with queue := s.queue ++ inputs } := by
  induction inputs generalizing s with
  | nil => simp
  | cons v inputs ih => simp [ih, State.push]

/-- A new instance is in status Running (R178, R230). -/
theorem State.status_of_construct {program : List Int} {s : State} (h : State.construct program = some s) :
    s.status = .running := by
  obtain ⟨-, h⟩ := Option.ite_none_right_eq_some.1 h
  cases h
  rfl

/-- The first calls of the two drivers, on an instance with no input and on one with all of them. -/
theorem activeAlike_push {s : State} (hs : s.status = .running) (inputs : List Word) :
    ActiveAlike inputs (s.beginResume none) ((inputs.foldl State.push s).beginResume none) := by
  have hpush : ({ s with queue := s.queue ++ inputs } : State).status = .running := hs
  rw [foldl_push, beginResume_of_runnable (.inl hs), beginResume_of_runnable (.inl hpush)]
  exact ⟨⟨rfl, rfl, rfl, by simp, rfl⟩, ⟨rfl, rfl⟩, ⟨rfl, rfl⟩⟩

/-- Settles O49: both drives are runs of cycles (`exists_stepwiseLoop_iff_drive`), of alike instances
(`drive_preloaded_iff`). -/
theorem stepwiseAgreesWithBatch : Obligations.StepwiseAgreesWithBatch := by
  intro program inputs e
  rcases hs : State.construct program with _ | s
  · simp [runBatch, runStepwise, hs, asBatchEnd]
  · have hrun := State.status_of_construct hs
    have hbatch : (∃ fuel, runBatch fuel program inputs = some e) ↔
        ∃ e', Drive [] ((inputs.foldl State.push s).beginResume none) [] e' ∧ asBatchEnd e' = e := by
      have hpush : (inputs.foldl State.push s).status.runnable = true := by rw [foldl_push, hrun]; rfl
      simp only [runBatch, hs, batchLoop_eq_map_stepwiseLoop _ _ 0, Option.map_eq_some_iff,
        ← exists_stepwiseLoop_iff_drive hpush, ← exists_and_right]
      exact exists_comm
    have hstepwise : (∃ fuel e', runStepwise fuel program (supply inputs) = some e' ∧ asBatchEnd e' = e) ↔
        ∃ e', Drive inputs (s.beginResume none) [] e' ∧ asBatchEnd e' = e := by
      simp only [runStepwise, hs, ← exists_stepwiseLoop_iff_drive (s := s) (by rw [hrun]; rfl), ← exists_and_right]
      exact exists_comm
    exact hbatch.trans ((exists_congr fun _ => and_congr_left' (drive_preloaded_iff
      (activeAlike_push hrun inputs))).trans hstepwise.symm)

end Sys2Proof.Machine
